-- ==== Sys2Proof/Word.lean ====
section
/-! DEFINITION. The bit-vector types of the block: bytes, 32-bit key and data words, 40-bit command words (spec 00_scope.md R6, R7, R8). -/

namespace Sys2Proof

/-- A symbol, a buffer byte, register B (00_scope.md R8; 10_state.md R22). -/
abbrev Byte := BitVec 8

/-- KEY_W = INV_W = RSP_DATA_W = 32 (00_scope.md R6). -/
abbrev Word := BitVec 32

/-- RSP_ERR_W = 4 (00_scope.md R6). -/
abbrev ErrBits := BitVec 4

/-- CMD_W = 40 (00_scope.md R6; 30_encoding.md R63). -/
abbrev CommandWord := BitVec 40

end Sys2Proof
end

