-- ==== Sys2Proof/Syntax.lean ====
section
/-! DEFINITION. The 13 commands of spec 30_encoding.md R66, with the operands of R65 at their widths. -/

namespace Sys2Proof

/-- One constructor per row of the opcode map (30_encoding.md R66). Operands are the fields of R65: VALUE 32 bits,
BYTE and DATA 8 bits, LEN and INDEX 16 bits. -/
inductive Instr where
  /-- SETA VALUE (40_key_management.md R82) -/
  | seta (value : BitVec 32)
  /-- SETB VALUE (40_key_management.md R83) -/
  | setb (value : BitVec 32)
  /-- ENCB p (41_affine_transform.md R102) -/
  | encb (p : BitVec 8)
  /-- DECB q (41_affine_transform.md R103) -/
  | decb (q : BitVec 8)
  /-- ENC LEN (42_buffer_passes.md R120) -/
  | enc (len : BitVec 16)
  /-- DEC LEN (42_buffer_passes.md R121) -/
  | dec (len : BitVec 16)
  /-- WRIN INDEX, DATA (43_access.md R140) -/
  | wrin (index : BitVec 16) (data : BitVec 8)
  /-- RDIN INDEX (43_access.md R141) -/
  | rdin (index : BitVec 16)
  /-- RDOUT INDEX (43_access.md R142) -/
  | rdout (index : BitVec 16)
  /-- RDA (43_access.md R143) -/
  | rda
  /-- RDB (43_access.md R144) -/
  | rdb
  /-- RDINV (43_access.md R145) -/
  | rdinv
  /-- RDSTAT (43_access.md R146) -/
  | rdstat
  deriving DecidableEq, Repr

end Sys2Proof
end

