-- ==== Sys2Proof/Decode.lean ====
section
/-! DEFINITION. The command decoder and encoder of spec 30_encoding.md R63 to R68, total on every 40-bit word. -/

namespace Sys2Proof

/-- Why a word is illegal (30_encoding.md R67). Both reasons execute as ERR_ILLEGAL; the block does not tell them apart. -/
inductive DecodeError where
  /-- OP is 0x00 or 0x0E..0xFF -/
  | unassignedOpcode (op : BitVec 8)
  /-- OP is in the map but a field written `0` in R64 is not zero -/
  | reservedFieldNonzero (op : BitVec 8)
  deriving DecidableEq, Repr

/-- OP = cmd_word[39:32] (30_encoding.md R63) -/
def opField (w : CommandWord) : BitVec 8 := w.extractLsb' 32 8

/-- VALUE = cmd_word[31:0] (30_encoding.md R65) -/
def valueField (w : CommandWord) : BitVec 32 := w.extractLsb' 0 32

/-- BYTE = cmd_word[7:0] (30_encoding.md R65) -/
def byteField (w : CommandWord) : BitVec 8 := w.extractLsb' 0 8

/-- LEN = cmd_word[15:0] (30_encoding.md R65) -/
def lenField (w : CommandWord) : BitVec 16 := w.extractLsb' 0 16

/-- INDEX = cmd_word[23:8] (30_encoding.md R65) -/
def indexField (w : CommandWord) : BitVec 16 := w.extractLsb' 8 16

/-- DATA = cmd_word[7:0] (30_encoding.md R65) -/
def dataField (w : CommandWord) : BitVec 8 := w.extractLsb' 0 8

/-- Format Y: cmd_word[31:8] is reserved (30_encoding.md R64) -/
def reservedY (w : CommandWord) : BitVec 24 := w.extractLsb' 8 24

/-- Format L: cmd_word[31:16] is reserved (30_encoding.md R64) -/
def reservedL (w : CommandWord) : BitVec 16 := w.extractLsb' 16 16

/-- Formats W and X: cmd_word[31:24] is reserved (30_encoding.md R64) -/
def reservedHigh (w : CommandWord) : BitVec 8 := w.extractLsb' 24 8

/-- Format X: cmd_word[7:0] is reserved (30_encoding.md R64) -/
def reservedLow (w : CommandWord) : BitVec 8 := w.extractLsb' 0 8

/-- Format N: cmd_word[31:0] is reserved (30_encoding.md R64) -/
def reservedN (w : CommandWord) : BitVec 32 := w.extractLsb' 0 32

/-- Strict decode: the command if its reserved fields are zero, else illegal (30_encoding.md R67). -/
def strict (reservedZero : Bool) (w : CommandWord) (i : Instr) : Except DecodeError Instr :=
  if reservedZero then .ok i else .error (.reservedFieldNonzero (opField w))

/-- The decoder: opcode map R66, formats R64, illegal words R67 and R68. -/
def decode (w : CommandWord) : Except DecodeError Instr :=
  match opField w with
  | 0x01#8 => .ok (.seta (valueField w))
  | 0x02#8 => .ok (.setb (valueField w))
  | 0x03#8 => strict (reservedY w == 0#24) w (.encb (byteField w))
  | 0x04#8 => strict (reservedY w == 0#24) w (.decb (byteField w))
  | 0x05#8 => strict (reservedL w == 0#16) w (.enc (lenField w))
  | 0x06#8 => strict (reservedL w == 0#16) w (.dec (lenField w))
  | 0x07#8 => strict (reservedHigh w == 0#8) w (.wrin (indexField w) (dataField w))
  | 0x08#8 => strict (reservedHigh w == 0#8 && reservedLow w == 0#8) w (.rdin (indexField w))
  | 0x09#8 => strict (reservedHigh w == 0#8 && reservedLow w == 0#8) w (.rdout (indexField w))
  | 0x0A#8 => strict (reservedN w == 0#32) w .rda
  | 0x0B#8 => strict (reservedN w == 0#32) w .rdb
  | 0x0C#8 => strict (reservedN w == 0#32) w .rdinv
  | 0x0D#8 => strict (reservedN w == 0#32) w .rdstat
  | op => .error (.unassignedOpcode op)

/-- The encoder: the bit strings of 30_encoding.md R64, most significant first. -/
def encode : Instr → CommandWord
  | .seta v => 0x01#8 ++ v
  | .setb v => 0x02#8 ++ v
  | .encb p => 0x03#8 ++ 0#24 ++ p
  | .decb q => 0x04#8 ++ 0#24 ++ q
  | .enc n => 0x05#8 ++ 0#16 ++ n
  | .dec n => 0x06#8 ++ 0#16 ++ n
  | .wrin i d => 0x07#8 ++ 0#8 ++ i ++ d
  | .rdin i => 0x08#8 ++ 0#8 ++ i ++ 0#8
  | .rdout i => 0x09#8 ++ 0#8 ++ i ++ 0#8
  | .rda => 0x0A#8 ++ 0#32
  | .rdb => 0x0B#8 ++ 0#32
  | .rdinv => 0x0C#8 ++ 0#32
  | .rdstat => 0x0D#8 ++ 0#32

/-- A word as the opcode table numbers it (bit 0 least significant; every row is 40 bits); bits above `nbits` are zero (log 13). -/
def tableWord (nbits w : Nat) : CommandWord := BitVec.ofNat 40 (w % 2 ^ nbits)

/-- The command the decoder reads from a word of the opcode table. -/
def decodeTableWord (nbits w : Nat) : Option Instr :=
  match decode (tableWord nbits w) with
  | .ok i => some i
  | .error _ => none

end Sys2Proof
end

