-- ==== Sys2Proof/Config.lean ====
section
/-! DEFINITION. The parameters of spec 00_scope.md R6, and the values the spec leaves free, as constants with no body. -/

namespace Sys2Proof.Config

/-- MOD: every transform is computed mod 256 (00_scope.md R6). -/
def modulus : Int := 256

/-- SCAN_HI: the scan tries the candidates 0..254 (00_scope.md R6; 90_conflicts.md C2). -/
def scanCandidates : Nat := 255

/-- SENTINEL: −1 in A_INV (00_scope.md R6; 10_state.md R23). -/
def sentinel : Word := 0xFFFFFFFF#32

/-- RESET_A (10_state.md R30). -/
def resetA : Word := 51#32

/-- RESET_B (10_state.md R30). -/
def resetB : Byte := 201#8

/-- RESET_AINV (10_state.md R30). -/
def resetAInv : Word := 251#32

/-- The spec's default of the parameter BUF_BYTES (00_scope.md R6; log 3). -/
def defaultBufBytes : Nat := 256

/-- The legal range of BUF_BYTES is 1 to this (00_scope.md R6; 20_memory.md R40). -/
def maxBufBytes : Nat := 65536

/-- The byte that the `n`-th read of an unwritten buffer byte gives: arbitrary, one draw per read
(20_memory.md R52; 93 U6; log 4, 5). -/
opaque freeByte : Nat → Byte

/-- rsp_err at the ports while rsp_valid = 0: unspecified (10_state.md R29; 93 U7; log 8). -/
opaque freeRspErr : Nat → ErrBits

/-- rsp_data at the ports while rsp_valid = 0: unspecified (10_state.md R29; 93 U7; log 8). -/
opaque freeRspData : Nat → Word

/-- LATENCY − 1 of a command accepted at the given edge: finite, otherwise unspecified
(00_scope.md R6; 70_reset_and_hazards.md R189; log 9). -/
opaque latencyExtra : Nat → Nat

/-- How many edges with rst_n = 1 pass after a reset edge before cmd_ready = 1: finite, otherwise unspecified
(70_reset_and_hazards.md R180; log 9). -/
opaque wakeDelay : Nat → Nat

end Sys2Proof.Config
end

