-- ==== Sys2Proof/Machine/State.lean ====
section
/-! DEFINITION. The architectural state of spec 10_state.md R20, the reasons a step can stop, and the state after reset (R30). -/

namespace Sys2Proof.Machine

/-- The written bytes of one buffer: (index, byte) pairs, indices strictly rising. An index not listed has not been
written since reset, and a read of it is a draw (20_memory.md R40, R52; log 4). -/
abbrev Memory := List Host.Cell

/-- The canonical form: indices strictly rising. -/
abbrev Memory.wf (m : Memory) : Prop := m.Pairwise (fun c d => c.1 < d.1)

/-- The two address spaces (20_memory.md R40). -/
inductive Space where
  | input
  | output
  deriving DecidableEq, Repr

/-- The error codes of 60_exceptions.md R161. -/
inductive ErrCode where
  /-- 0: every successful command -/
  | ok
  /-- 1: never raised (R163) -/
  | keyType
  /-- 2: SETA, VALUE even (R164) -/
  | keyParity
  /-- 3: ENCB and ENC, A_INV = −1 (R162) -/
  | keyUnusable
  /-- 4: a word that matches no row (R165) -/
  | illegal
  /-- 5: index or length outside the buffer (R166) -/
  | range
  deriving DecidableEq, Repr

/-- A response: the error code and the data (30_encoding.md R71). -/
structure Response where
  err : ErrCode
  data : Word
  deriving DecidableEq, Repr

/-- What the host does to the block between two states of the step model (log 1, 2). -/
inductive HostInput where
  /-- present a command word, which the block accepts and completes (30_encoding.md R61, R62) -/
  | command (w : CommandWord)
  /-- hold rst_n = 0 at a rising edge, no command in flight (70_reset_and_hazards.md R180) -/
  | reset
  /-- present a command word and reset the block while it is in flight (70_reset_and_hazards.md R182) -/
  | abandoned (w : CommandWord)
  deriving DecidableEq, Repr

/-- Why the machine stops. No step of the block stops: every accepted command completes (70_reset_and_hazards.md R191). -/
inductive Fault where
  /-- A latched response that is read holds an error code 6..15, which is never produced (93 U11). Raised by
  `readResponse` and by `runCommands` through it, never by `step`. Safe: it stops where the spec says a model has a bug. -/
  | reservedErrorCode
  deriving DecidableEq, Repr

/-- Why a word or an edge has no meaning. -/
inductive Refusal where
  /-- An instruction with no meaning yet; no arm of `exec` uses it. Safe: it stops. -/
  | notModelled (mnemonic : String)
  /-- A clock edge with rst_n = 1 of a block that was never reset, of which the spec makes no promise
  (70_reset_and_hazards.md R181; 93 U10). Raised by `clockEdge` and `portOutputs` only. Safe: it stops. -/
  | neverReset
  deriving DecidableEq, Repr

/-- The state between commands (10_state.md R20), with the parameter BUF_BYTES, the draw counter and the host's
remaining actions. -/
structure State where
  /-- register A (R21) -/
  a : Word
  /-- register B (R22) -/
  b : Byte
  /-- register A_INV (R23) -/
  aInv : Word
  /-- buffer IN (R20; 20_memory.md R41) -/
  inBuf : Memory
  /-- buffer OUT (R20; 20_memory.md R42) -/
  outBuf : Memory
  /-- RSP_VALID (R29) -/
  rspValid : Bool
  /-- RSP_ERR (R29) -/
  rspErr : ErrBits
  /-- RSP_DATA (R29) -/
  rspData : Word
  /-- the parameter BUF_BYTES (00_scope.md R6; log 3) -/
  bufBytes : Nat
  /-- how many arbitrary bytes have been drawn (the model's own; log 5) -/
  draws : Nat
  /-- the host's actions not yet performed (the model's own; log 1) -/
  inputs : List HostInput
  deriving DecidableEq, Repr

/-- The state after reset (10_state.md R30): the keys and RSP_VALID as the spec gives them, both buffers unwritten, BUF_BYTES
the spec's default. RSP_ERR and RSP_DATA are unspecified: 0, DESIGN CHOICE (log 6). `draws` 0 and `inputs` empty are the
model's own (log 1, 5). -/
def State.reset : State where
  a := Config.resetA
  b := Config.resetB
  aInv := Config.resetAInv
  inBuf := []
  outBuf := []
  rspValid := false
  rspErr := 0#4
  rspData := 0#32
  bufBytes := Config.defaultBufBytes
  draws := 0
  inputs := []

end Sys2Proof.Machine
end

