-- ==== Sys2Proof/Machine/Ops.lean ====
section
/-! DEFINITION. The named operations over the buffers, the response latch and reset (spec 00_scope.md R10; 20_memory.md;
60_exceptions.md R160). -/

namespace Sys2Proof.Machine

/-- The byte written at an index, none if no command has written it since reset. -/
def Memory.lookup : Memory → Nat → Option Byte
  | [], _ => none
  | (k, v) :: m, i => if k = i then some v else Memory.lookup m i

/-- Write one byte, keeping the canonical form. -/
def Memory.store : Memory → Nat → Byte → Memory
  | [], i, v => [(i, v)]
  | (k, u) :: m, i, v =>
    if i < k then (i, v) :: (k, u) :: m
    else if i = k then (i, v) :: m
    else (k, u) :: Memory.store m i v

/-- What a byte that no command has written reads as: the draw with this number (20_memory.md R52; log 4). -/
def Memory.unwritten (draw : Nat) : Byte := Config.freeByte draw

/-- The buffer of an address space (20_memory.md R40). -/
def State.buffer (s : State) : Space → Memory
  | .input => s.inBuf
  | .output => s.outBuf

/-- MemRead(S, i, 1) (00_scope.md R10): the byte, and the state after the read, in which only the draw counter can
differ (20_memory.md R47, R52; log 5). -/
def readByte (sp : Space) (i : Nat) (s : State) : Byte × State :=
  match (s.buffer sp).lookup i with
  | some v => (v, s)
  | none => (Memory.unwritten s.draws, { s with draws := s.draws + 1 })

/-- MemWrite(S, i, 1, v) (00_scope.md R10). -/
def writeByte (sp : Space) (i : Nat) (v : Byte) (s : State) : State :=
  match sp with
  | .input => { s with inBuf := s.inBuf.store i v }
  | .output => { s with outBuf := s.outBuf.store i v }

/-- The value of rsp_err for an error code (60_exceptions.md R161). -/
def ErrCode.code : ErrCode → ErrBits
  | .ok => 0#4
  | .keyType => 1#4
  | .keyParity => 2#4
  | .keyUnusable => 3#4
  | .illegal => 4#4
  | .range => 5#4

/-- The error code a value of rsp_err stands for; 6..15 are reserved (60_exceptions.md R161). -/
def ErrCode.ofCode? (c : ErrBits) : Option ErrCode :=
  [ErrCode.ok, .keyType, .keyParity, .keyUnusable, .illegal, .range].find? (fun e => e.code == c)

/-- Latch a response (10_state.md R29): the command has completed. -/
def latch (e : ErrCode) (d : Word) (s : State) : State :=
  { s with rspValid := true, rspErr := e.code, rspData := d }

/-- respond(d): the command ends successfully with response (OK, d) (00_scope.md R10; 30_encoding.md R71). -/
def respond (d : Word) (s : State) : Host.Outcome State Fault Refusal :=
  .next (latch .ok d s)

/-- raise Err(code): the command ends at once with response (code, 0); called on the state before the command, so that no
other write takes effect (00_scope.md R10; 60_exceptions.md R160). There is no trap entry and no return (R171). -/
def raiseErr (e : ErrCode) (s : State) : Host.Outcome State Fault Refusal :=
  .next (latch e 0#32 s)

/-- A rising edge with rst_n = 0 (70_reset_and_hazards.md R180, R182): the reset values of 10_state.md R30. The parameter
BUF_BYTES, the draw counter and the host's remaining actions are not the block's state and stay (log 1, 3, 5). -/
def pulseReset (s : State) : State :=
  { State.reset with bufBytes := s.bufBytes, draws := s.draws, inputs := s.inputs }

/-- The response the host reads: none while RSP_VALID = 0, when RSP_ERR and RSP_DATA must not be read (10_state.md R29);
a reserved code is a fault (93 U11). -/
def readResponse (s : State) : Except Fault (Option Response) :=
  if s.rspValid then
    match ErrCode.ofCode? s.rspErr with
    | some e => .ok (some { err := e, data := s.rspData })
    | none => .error .reservedErrorCode
  else .ok none

end Sys2Proof.Machine
end

