-- ==== Sys2Proof/Machine/Operands.lean ====
section
/-! DEFINITION. The operand forms of spec 30_encoding.md R65: how each field is read, and the two range checks of
20_memory.md R45. -/

namespace Sys2Proof.Machine

/-- VALUE read as a two's complement integer, without extension (30_encoding.md R65). -/
def valueInt (value : BitVec 32) : Int := value.toInt

/-- VALUE is even: VALUE[0] = 0 (40_key_management.md R82; 92 D6). -/
def valueEven (value : BitVec 32) : Bool := !value.getLsbD 0

/-- An INDEX inside the buffer: INDEX < BUF_BYTES (20_memory.md R45). -/
def indexInBuffer (index : BitVec 16) (s : State) : Bool := decide (index.toNat < s.bufBytes)

/-- A LEN inside the buffer: LEN ≤ BUF_BYTES (20_memory.md R45). -/
def lenInBuffer (len : BitVec 16) (s : State) : Bool := decide (len.toNat ≤ s.bufBytes)

/-- zext_32 of a byte result (30_encoding.md R71; 20_memory.md R43). -/
def byteResult (v : Byte) : Word := v.setWidth 32

/-- zext_32 of LEN (42_buffer_passes.md R120, R121). -/
def lenResult (len : BitVec 16) : Word := len.setWidth 32

/-- An integer reduced by floor modulo 256 into a byte (00_scope.md R9; 41_affine_transform.md R104). -/
def byteOfInt (x : Int) : Byte := BitVec.ofInt 8 (x % Config.modulus)

end Sys2Proof.Machine
end

