-- ==== Sys2Proof/Machine/Flags.lean ====
section
/-! DEFINITION. The one flag, KEY_USABLE, and the STATUS word (spec 10_state.md R25, R26). Neither is stored. -/

namespace Sys2Proof.Machine

/-- KEY_USABLE = (A_INV ≠ 0xFFFF_FFFF) (10_state.md R25). -/
def keyUsable (s : State) : Bool := s.aInv != Config.sentinel

/-- STATUS: bit 0 KEY_USABLE, bits 31:1 zero (10_state.md R26). -/
def statusWord (s : State) : Word := 0#31 ++ BitVec.ofBool (keyUsable s)

end Sys2Proof.Machine
end

