-- ==== Sys2Proof/Machine/Access.lean ====
section
/-! DEFINITION. Buffer access and register read-back (spec 43_access.md). -/

namespace Sys2Proof.Machine

/-- RDIN and RDOUT: the range check, then one byte of a buffer, zero-extended (43_access.md R141, R142). -/
def readBuffer (sp : Space) (index : BitVec 16) (s : State) : Host.Outcome State Fault Refusal :=
  if indexInBuffer index s then
    let r := readByte sp index.toNat s
    respond (byteResult r.1) r.2
  else raiseErr .range s

/-- WRIN INDEX, DATA (43_access.md R140). -/
def execWrin (index : BitVec 16) (data : BitVec 8) (s : State) : Host.Outcome State Fault Refusal :=
  if indexInBuffer index s then respond 0#32 (writeByte .input index.toNat data s) else raiseErr .range s

/-- RDIN INDEX (43_access.md R141). -/
def execRdin (index : BitVec 16) (s : State) : Host.Outcome State Fault Refusal := readBuffer .input index s

/-- RDOUT INDEX (43_access.md R142). -/
def execRdout (index : BitVec 16) (s : State) : Host.Outcome State Fault Refusal := readBuffer .output index s

/-- RDA: all 32 bits of A as stored (43_access.md R143). -/
def execRda (s : State) : Host.Outcome State Fault Refusal := respond s.a s

/-- RDB (43_access.md R144). -/
def execRdb (s : State) : Host.Outcome State Fault Refusal := respond (byteResult s.b) s

/-- RDINV: the sentinel reads as 0xFFFF_FFFF (43_access.md R145). -/
def execRdinv (s : State) : Host.Outcome State Fault Refusal := respond s.aInv s

/-- RDSTAT (43_access.md R146). -/
def execRdstat (s : State) : Host.Outcome State Fault Refusal := respond (statusWord s) s

end Sys2Proof.Machine
end

