-- ==== Sys2Proof/Machine/AffineTransform.lean ====
section
/-! DEFINITION. The affine_byte_transform and the two byte commands (spec 41_affine_transform.md). -/

namespace Sys2Proof.Machine

/-- AffineEnc(a, b, p) = (a·p + b) mod 256, the product of the full A (41_affine_transform.md R100). -/
def affineEnc (a : Word) (b p : Byte) : Byte := byteOfInt (a.toInt * (p.toNat : Int) + (b.toNat : Int))

/-- AffineDec(inv, b, q) = (inv·(q − b)) mod 256, floor modulo (41_affine_transform.md R101). -/
def affineDec (inv : Word) (b q : Byte) : Byte := byteOfInt (inv.toInt * ((q.toNat : Int) - (b.toNat : Int)))

/-- ENCB p (41_affine_transform.md R102). -/
def execEncb (p : BitVec 8) (s : State) : Host.Outcome State Fault Refusal :=
  if keyUsable s then respond (byteResult (affineEnc s.a s.b p)) s else raiseErr .keyUnusable s

/-- DECB q: no key check (41_affine_transform.md R103; 92 D12). -/
def execDecb (q : BitVec 8) (s : State) : Host.Outcome State Fault Refusal :=
  respond (byteResult (affineDec s.aInv s.b q)) s

end Sys2Proof.Machine
end

