-- ==== Sys2Proof/Machine/BufferPasses.lean ====
section
/-! DEFINITION. The whole-buffer passes (spec 42_buffer_passes.md). -/

namespace Sys2Proof.Machine

/-- One lane of a pass: OUT[i] := f(IN[i]) (42_buffer_passes.md R120, R121). -/
def passLane (f : Byte → Byte) (i : Nat) (s : State) : State :=
  let r := readByte .input i s
  writeByte .output i (f r.1) r.2

/-- Lanes 0..n−1 in increasing order (42_buffer_passes.md R120, R121; 00_scope.md R10). -/
def passLanes (f : Byte → Byte) : Nat → State → State
  | 0, s => s
  | n + 1, s => passLane f n (passLanes f n s)

/-- ENC LEN: the length check, then the key check (also when LEN = 0), then the lanes (42_buffer_passes.md R120). -/
def execEnc (len : BitVec 16) (s : State) : Host.Outcome State Fault Refusal :=
  if lenInBuffer len s then
    if keyUsable s then respond (lenResult len) (passLanes (affineEnc s.a s.b) len.toNat s)
    else raiseErr .keyUnusable s
  else raiseErr .range s

/-- DEC LEN: the length check, then the lanes; no key check (42_buffer_passes.md R121; 92 D12). -/
def execDec (len : BitVec 16) (s : State) : Host.Outcome State Fault Refusal :=
  if lenInBuffer len s then respond (lenResult len) (passLanes (affineDec s.aInv s.b) len.toNat s)
  else raiseErr .range s

end Sys2Proof.Machine
end

