-- ==== Sys2Proof/Machine/KeyManagement.lean ====
section
/-! DEFINITION. The modular_inverse_engine and the two key setters (spec 40_key_management.md). -/

namespace Sys2Proof.Machine

/-- The scan loop of 40_key_management.md R80: `n` candidates are left and `x` is the next one. -/
def scanFrom (v : Word) : Nat → Nat → Word
  | 0, _ => Config.sentinel
  | n + 1, x => if ((x : Int) * v.toInt) % Config.modulus = 1 then BitVec.ofNat 32 x else scanFrom v n (x + 1)

/-- Scan(v): the first x in 0..254 with (x · v) mod 256 = 1, else −1 (40_key_management.md R80; 90_conflicts.md C2). -/
def scan (v : Word) : Word := scanFrom v Config.scanCandidates 0

/-- SETA VALUE (40_key_management.md R82). -/
def execSeta (value : BitVec 32) (s : State) : Host.Outcome State Fault Refusal :=
  if valueEven value then raiseErr .keyParity s
  else respond 0#32 { s with a := value, aInv := scan value }

/-- SETB VALUE (40_key_management.md R83). -/
def execSetb (value : BitVec 32) (s : State) : Host.Outcome State Fault Refusal :=
  respond 0#32 { s with b := byteOfInt (valueInt value) }

end Sys2Proof.Machine
end

