-- ==== Sys2Proof/Machine/Dispatch.lean ====
section
/-! DEFINITION. The meaning of each command (spec 30_encoding.md R66), one arm per constructor. -/

namespace Sys2Proof.Machine

def exec (i : Instr) (s : State) : Host.Outcome State Fault Refusal :=
  match i with
  | .seta value => Sys2Proof.Machine.execSeta value s
  | .setb value => Sys2Proof.Machine.execSetb value s
  | .encb p => Sys2Proof.Machine.execEncb p s
  | .decb q => Sys2Proof.Machine.execDecb q s
  | .enc len => Sys2Proof.Machine.execEnc len s
  | .dec len => Sys2Proof.Machine.execDec len s
  | .wrin index data => Sys2Proof.Machine.execWrin index data s
  | .rdin index => Sys2Proof.Machine.execRdin index s
  | .rdout index => Sys2Proof.Machine.execRdout index s
  | .rda => Sys2Proof.Machine.execRda s
  | .rdb => Sys2Proof.Machine.execRdb s
  | .rdinv => Sys2Proof.Machine.execRdinv s
  | .rdstat => Sys2Proof.Machine.execRdstat s

end Sys2Proof.Machine
end

