-- ==== Sys2Proof/Machine/Command.lean ====
section
/-! DEFINITION. One accepted command word (spec 30_encoding.md R62, R67), one host action, and a run with its observation
(70_reset_and_hazards.md R190). -/

namespace Sys2Proof.Machine

/-- The step of 30_encoding.md R62: the command the word decodes to, or the illegal-encoding rule R67. -/
def acceptWord (w : CommandWord) (s : State) : Host.Outcome State Fault Refusal :=
  match decode w with
  | .ok i => exec i s
  | .error _ => raiseErr .illegal s

/-- One host action. A command cut off by a reset leaves the reset state and no response, whatever it would have written
(70_reset_and_hazards.md R180, R182). -/
def acceptInput (h : HostInput) (s : State) : Host.Outcome State Fault Refusal :=
  match h with
  | .command w => acceptWord w s
  | .reset => .next (pulseReset s)
  | .abandoned _ => .next (pulseReset s)

/-- A finite sequence of commands, each response read before the next command: the responses in acceptance order and the
state after the last command (70_reset_and_hazards.md R185, R190). -/
def runCommands : List CommandWord → State → Host.Outcome (List Response × State) Fault Refusal
  | [], s => .next ([], s)
  | w :: ws, s =>
    match acceptWord w s with
    | .fault r => .fault r
    | .refused r => .refused r
    | .next t =>
      match readResponse t with
      | .error r => .fault r
      | .ok r? =>
        match runCommands ws t with
        | .fault r => .fault r
        | .refused r => .refused r
        | .next (rs, u) => .next (r?.toList ++ rs, u)

end Sys2Proof.Machine
end

