-- ==== Sys2Proof/Machine/Step.lean ====
section
/-! DEFINITION. The step: the block performs the host's next action, or waits (spec 30_encoding.md R62; 60_exceptions.md R179). -/

namespace Sys2Proof.Machine

/-- One step. With no host action left the block waits and keeps all state (60_exceptions.md R179). -/
def step (s : State) : Host.Outcome State Fault Refusal :=
  match s.inputs with
  | [] => .next s
  | h :: rest => acceptInput h { s with inputs := rest }

/-- The state in which the host presents this word of the opcode table next (log 13). -/
def State.withFetchWord (s : State) (nbits w : Nat) : State :=
  { s with inputs := .command (tableWord nbits w) :: s.inputs }

end Sys2Proof.Machine
end

