-- ==== Sys2Proof/WellFormed.lean ====
section
/-! DEFINITION. The assembly source of spec 30_encoding.md R69 and R70 as data, the range check of each operand form,
and well-formedness of a command as the check of its own listing. -/

namespace Sys2Proof

/-- A number as the source writes it: decimal (with an optional minus), hexadecimal, or a character literal
(30_encoding.md R69). -/
inductive Number where
  | dec (n : Int)
  | hex (n : Nat)
  | chr (code : Nat)
  deriving DecidableEq, Repr

/-- One source line: a command, the directive `.word`, or a pseudo-instruction (30_encoding.md R69, R70). -/
inductive AsmLine where
  | seta (value : Number)
  | setb (value : Number)
  | encb (p : Number)
  | decb (q : Number)
  | enc (len : Number)
  | dec (len : Number)
  | wrin (index data : Number)
  | rdin (index : Number)
  | rdout (index : Number)
  | rda
  | rdb
  | rdinv
  | rdstat
  | word (w : Nat)
  | setkey (a b : Number)
  | wrstr (index : Number) (bytes : List Byte)
  | rdbuf (index count : Number)
  deriving DecidableEq, Repr

/-- The integer a number stands for; a character literal stands for its code (30_encoding.md R69). -/
def Number.value : Number → Int
  | .dec n => n
  | .hex n => n
  | .chr c => c

/-- SETA and SETB: −2147483648..2147483647, or 0x0..0xFFFFFFFF (30_encoding.md R69), the second read as the range of
hexadecimal numbers: DESIGN CHOICE (log 11). -/
def Number.isValue : Number → Bool
  | .dec n => decide (-2147483648 ≤ n ∧ n ≤ 2147483647)
  | .hex n => decide (n ≤ 0xFFFFFFFF)
  | .chr _ => false

/-- A byte: 0..255 or a 7-bit character literal (30_encoding.md R69). -/
def Number.isByte : Number → Bool
  | .dec n => decide (0 ≤ n ∧ n ≤ 255)
  | .hex n => decide (n ≤ 255)
  | .chr c => decide (c < 128)

/-- A length or an index: 0..65535 (30_encoding.md R69). -/
def Number.isHalf : Number → Bool
  | .dec n => decide (0 ≤ n ∧ n ≤ 65535)
  | .hex n => decide (n ≤ 65535)
  | .chr _ => false

/-- RDBUF's count: not negative and not a character literal; each index it reaches is checked by `AsmLine.wellFormed` (log 11). -/
def Number.isCount : Number → Bool
  | .dec n => decide (0 ≤ n)
  | .hex _ => true
  | .chr _ => false

/-- The assembler's range check, per operand (30_encoding.md R69); a pseudo-instruction passes when every command it
expands to does (R70). A WRSTR of no byte or an RDBUF of count 0 expands to none, and R70 is silent on its index: it must be
0..65535 all the same, DESIGN CHOICE (log 11). Neither INDEX and LEN against BUF_BYTES nor the parity of SETA is checked here. -/
def AsmLine.wellFormed : AsmLine → Bool
  | .seta v => v.isValue
  | .setb v => v.isValue
  | .encb p => p.isByte
  | .decb q => q.isByte
  | .enc n => n.isHalf
  | .dec n => n.isHalf
  | .wrin i d => i.isHalf && d.isByte
  | .rdin i => i.isHalf
  | .rdout i => i.isHalf
  | .rda => true
  | .rdb => true
  | .rdinv => true
  | .rdstat => true
  | .word w => decide (w < 2 ^ 40)
  | .setkey a b => a.isValue && b.isValue
  | .wrstr i bs => i.isHalf && decide (i.value + bs.length ≤ 65536)
  | .rdbuf i n => i.isHalf && n.isCount && decide (i.value + n.value ≤ 65536)

/-- The listing of a command: VALUE as the signed integer it holds, every other operand unsigned
(30_encoding.md R65, R69). -/
def Instr.listing : Instr → AsmLine
  | .seta v => .seta (.dec v.toInt)
  | .setb v => .setb (.dec v.toInt)
  | .encb p => .encb (.dec p.toNat)
  | .decb q => .decb (.dec q.toNat)
  | .enc n => .enc (.dec n.toNat)
  | .dec n => .dec (.dec n.toNat)
  | .wrin i d => .wrin (.dec i.toNat) (.dec d.toNat)
  | .rdin i => .rdin (.dec i.toNat)
  | .rdout i => .rdout (.dec i.toNat)
  | .rda => .rda
  | .rdb => .rdb
  | .rdinv => .rdinv
  | .rdstat => .rdstat

/-- A command is well formed when its listing passes the assembler's check. The widths in `Instr` already
say so of every command (the law is `Laws.WellFormed`). -/
def Instr.wellFormed (i : Instr) : Bool := i.listing.wellFormed

end Sys2Proof
end

