-- ==== Sys2Proof/Machine/Assembler.lean ====
section
/-! DEFINITION. The assembler of spec 30_encoding.md R69 and R70: from a source line to the command words it stands for. -/

namespace Sys2Proof.Machine

/-- A number as VALUE: 32-bit two's complement (30_encoding.md R69). -/
def asmValue (n : Number) : BitVec 32 := BitVec.ofInt 32 n.value

/-- A number as BYTE or DATA (30_encoding.md R69). -/
def asmByte (n : Number) : BitVec 8 := BitVec.ofInt 8 n.value

/-- A number as LEN or INDEX (30_encoding.md R69). -/
def asmHalf (n : Number) : BitVec 16 := BitVec.ofInt 16 n.value

/-- WRSTR's expansion: one WRIN per byte, in increasing index (30_encoding.md R70). -/
def wrstrCommands : Nat → List Byte → List Instr
  | _, [] => []
  | i, v :: vs => .wrin (BitVec.ofNat 16 i) v :: wrstrCommands (i + 1) vs

/-- RDBUF's expansion: RDOUT of `n` indices from `i` on, in increasing index (30_encoding.md R70). -/
def rdbufCommands : Nat → Nat → List Instr
  | _, 0 => []
  | i, n + 1 => .rdout (BitVec.ofNat 16 i) :: rdbufCommands (i + 1) n

/-- The words of a line, before the range check (30_encoding.md R69, R70). -/
def lineWords : AsmLine → List CommandWord
  | .seta v => [encode (.seta (asmValue v))]
  | .setb v => [encode (.setb (asmValue v))]
  | .encb p => [encode (.encb (asmByte p))]
  | .decb q => [encode (.decb (asmByte q))]
  | .enc n => [encode (.enc (asmHalf n))]
  | .dec n => [encode (.dec (asmHalf n))]
  | .wrin i d => [encode (.wrin (asmHalf i) (asmByte d))]
  | .rdin i => [encode (.rdin (asmHalf i))]
  | .rdout i => [encode (.rdout (asmHalf i))]
  | .rda => [encode .rda]
  | .rdb => [encode .rdb]
  | .rdinv => [encode .rdinv]
  | .rdstat => [encode .rdstat]
  | .word w => [BitVec.ofNat 40 w]
  | .setkey a b => [encode (.seta (asmValue a)), encode (.setb (asmValue b))]
  | .wrstr i vs => (wrstrCommands i.value.toNat vs).map encode
  | .rdbuf i n => (rdbufCommands i.value.toNat n.value.toNat).map encode

/-- Assemble a line: its words if every operand is in range (30_encoding.md R69). -/
def assembleLine (l : AsmLine) : Option (List CommandWord) := if l.wellFormed then some (lineWords l) else none

/-! The text of a line. What R69 leaves open of it (white space, letter case, leading zeros, lines with no command) is the
model's choice, DESIGN CHOICE, listed in log 11. -/

/-- Drop leading spaces and tabs. -/
def skipBlanks (cs : List Char) : List Char := cs.dropWhile (fun c => c.toNat = 32 || c.toNat = 9)

/-- The value of a decimal digit. -/
def decDigit? (c : Char) : Option Nat := if 48 ≤ c.toNat ∧ c.toNat ≤ 57 then some (c.toNat - 48) else none

/-- The value of a hexadecimal digit of either case. -/
def hexDigit? (c : Char) : Option Nat :=
  if 97 ≤ c.toNat ∧ c.toNat ≤ 102 then some (c.toNat - 87)
  else if 65 ≤ c.toNat ∧ c.toNat ≤ 70 then some (c.toNat - 55)
  else decDigit? c

/-- The longest run of digits in a base: value, how many digits, and the rest. -/
def digitRun (digit? : Char → Option Nat) (base : Nat) : List Char → Nat → Nat → Nat × Nat × List Char
  | [], acc, n => (acc, n, [])
  | c :: cs, acc, n =>
    match digit? c with
    | some d => digitRun digit? base cs (acc * base + d) (n + 1)
    | none => (acc, n, c :: cs)

/-- A decimal number with this sign. -/
def decNumber? (sign : Int) (cs : List Char) : Option (Number × List Char) :=
  match digitRun decDigit? 10 cs 0 0 with
  | (_, 0, _) => none
  | (v, _, rest) => some (.dec (sign * v), rest)

/-- A number: decimal with an optional minus, hexadecimal with prefix 0x, or a character literal of a 7-bit ASCII
character (30_encoding.md R69). Leading zeros, and any one character below 128 in a literal: DESIGN CHOICE (log 11). -/
def number? (cs : List Char) : Option (Number × List Char) :=
  match skipBlanks cs with
  | '0' :: 'x' :: ds =>
    match digitRun hexDigit? 16 ds 0 0 with
    | (_, 0, _) => none
    | (v, _, rest) => some (.hex v, rest)
  | c :: ds =>
    if c.toNat = 39 then
      match ds with
      | x :: q :: rest => if x.toNat < 128 ∧ q.toNat = 39 then some (.chr x.toNat, rest) else none
      | _ => none
    else if c = '-' then decNumber? (-1) ds
    else decNumber? 1 (c :: ds)
  | [] => none

/-- A comma between operands. -/
def comma? (cs : List Char) : Option (List Char) :=
  match skipBlanks cs with
  | ',' :: rest => some rest
  | _ => none

/-- The end of a line, or a comment (30_encoding.md R69). -/
def atEnd (cs : List Char) : Bool :=
  match skipBlanks cs with
  | [] => true
  | c :: _ => c = ';'

/-- The body of a string up to its closing quote: 7-bit ASCII, an escape backslash-x-N-N standing for one byte
(30_encoding.md R70). The spec is silent on a backslash-x without two hexadecimal digits after it: no string, DESIGN CHOICE,
wherever the line ends; so is a backslash before any other character: it stands for itself, DESIGN CHOICE (log 11). -/
def stringBody? : List Char → Option (List Byte × List Char)
  | '\\' :: 'x' :: h :: l :: rest =>
    match hexDigit? h, hexDigit? l, stringBody? rest with
    | some a, some b, some (bs, tail) => some (BitVec.ofNat 8 (a * 16 + b) :: bs, tail)
    | _, _, _ => none
  | '\\' :: 'x' :: _ => none
  | c :: rest =>
    if c.toNat = 34 then some ([], rest)
    else if c.toNat < 128 then
      match stringBody? rest with
      | some (bs, tail) => some (BitVec.ofNat 8 c.toNat :: bs, tail)
      | none => none
    else none
  | [] => none

/-- A quoted string. -/
def string? (cs : List Char) : Option (List Byte × List Char) :=
  match skipBlanks cs with
  | c :: rest => if c.toNat = 34 then stringBody? rest else none
  | [] => none

/-- The ten hexadecimal digits of `.word`, underscores ignored (30_encoding.md R69), at any place (log 11). -/
def wordDigits? (cs : List Char) : Option (Nat × List Char) :=
  let field := (skipBlanks cs).takeWhile (fun c => (hexDigit? c).isSome || c = '_')
  match digitRun hexDigit? 16 (field.filter (· ≠ '_')) 0 0 with
  | (v, 10, []) => some (v, (skipBlanks cs).drop field.length)
  | _ => none

/-- One operand, then the end of the line. -/
def oneOperand? (mk : Number → AsmLine) (cs : List Char) : Option AsmLine :=
  match number? cs with
  | some (n, rest) => if atEnd rest then some (mk n) else none
  | none => none

/-- Two operands separated by a comma, then the end of the line. -/
def twoOperands? (mk : Number → Number → AsmLine) (cs : List Char) : Option AsmLine :=
  match number? cs with
  | some (n, rest) =>
    match comma? rest with
    | some rest => oneOperand? (mk n) rest
    | none => none
  | none => none

/-- No operand. -/
def noOperand? (l : AsmLine) (cs : List Char) : Option AsmLine := if atEnd cs then some l else none

/-- WRSTR's operands: an index, a comma and a string (30_encoding.md R70). -/
def wrstrOperands? (cs : List Char) : Option AsmLine :=
  match number? cs with
  | some (n, rest) =>
    match comma? rest with
    | some rest =>
      match string? rest with
      | some (bs, rest) => if atEnd rest then some (.wrstr n bs) else none
      | none => none
    | none => none
  | none => none

/-- `.word`'s operand (30_encoding.md R69). -/
def wordOperand? (cs : List Char) : Option AsmLine :=
  match wordDigits? cs with
  | some (w, rest) => if atEnd rest then some (.word w) else none
  | none => none

/-- Parse the operands of a mnemonic (30_encoding.md R69, R70). -/
def operands? (mnemonic : List Char) (cs : List Char) : Option AsmLine :=
  if mnemonic = ['S', 'E', 'T', 'A'] then oneOperand? .seta cs
  else if mnemonic = ['S', 'E', 'T', 'B'] then oneOperand? .setb cs
  else if mnemonic = ['E', 'N', 'C', 'B'] then oneOperand? .encb cs
  else if mnemonic = ['D', 'E', 'C', 'B'] then oneOperand? .decb cs
  else if mnemonic = ['E', 'N', 'C'] then oneOperand? .enc cs
  else if mnemonic = ['D', 'E', 'C'] then oneOperand? .dec cs
  else if mnemonic = ['W', 'R', 'I', 'N'] then twoOperands? .wrin cs
  else if mnemonic = ['R', 'D', 'I', 'N'] then oneOperand? .rdin cs
  else if mnemonic = ['R', 'D', 'O', 'U', 'T'] then oneOperand? .rdout cs
  else if mnemonic = ['R', 'D', 'A'] then noOperand? .rda cs
  else if mnemonic = ['R', 'D', 'B'] then noOperand? .rdb cs
  else if mnemonic = ['R', 'D', 'I', 'N', 'V'] then noOperand? .rdinv cs
  else if mnemonic = ['R', 'D', 'S', 'T', 'A', 'T'] then noOperand? .rdstat cs
  else if mnemonic = ['.', 'w', 'o', 'r', 'd'] then wordOperand? cs
  else if mnemonic = ['S', 'E', 'T', 'K', 'E', 'Y'] then twoOperands? .setkey cs
  else if mnemonic = ['W', 'R', 'S', 'T', 'R'] then wrstrOperands? cs
  else if mnemonic = ['R', 'D', 'B', 'U', 'F'] then twoOperands? .rdbuf cs
  else none

/-- A character of a mnemonic: not white space and not the start of a comment. So white space must stand between a mnemonic
and its first operand, of which R69 is silent: DESIGN CHOICE (log 11). -/
def mnemonicChar (c : Char) : Bool := !(c.toNat = 32 || c.toNat = 9 || c = ';')

/-- Parse one line; none inside for a line with no command (30_encoding.md R69; log 11). -/
def parseLine (cs : List Char) : Option (Option AsmLine) :=
  if atEnd cs then some none
  else
    match operands? ((skipBlanks cs).takeWhile mnemonicChar) ((skipBlanks cs).dropWhile mnemonicChar) with
    | some l => some (some l)
    | none => none

/-- Assemble a listing, a list of lines: the command words in order, none if a line does not parse or is out of range
(30_encoding.md R69, R70; that one such line refuses the listing: DESIGN CHOICE, log 11). -/
def assembleListing : List (List Char) → Option (List CommandWord)
  | [] => some []
  | cs :: lines =>
    match parseLine cs, assembleListing lines with
    | some none, some ws => some ws
    | some (some l), some ws => (assembleLine l).map (· ++ ws)
    | _, _ => none

end Sys2Proof.Machine
end

