-- ==== Sys2Proof/Machine/Ports.lean ====
section
/-! DEFINITION. The ports and the valid/ready handshake edge by edge (spec 30_encoding.md R60, R61; 70_reset_and_hazards.md
R180 to R182, R189). The step model is its reduction to one step per accepted command (30_encoding.md R62). -/

namespace Sys2Proof.Machine

/-- The inputs sampled at a rising edge of clk (30_encoding.md R60). -/
structure Pins where
  rstN : Bool
  cmdValid : Bool
  cmdWord : CommandWord
  deriving DecidableEq, Repr

/-- The outputs (30_encoding.md R60). -/
structure Outputs where
  cmdReady : Bool
  rspValid : Bool
  rspErr : ErrBits
  rspData : Word
  keyUsable : Bool
  deriving DecidableEq, Repr

/-- Where the block is in the handshake. -/
inductive Phase where
  /-- powered on and never reset (70_reset_and_hazards.md R181) -/
  | neverReset
  /-- reset, cmd_ready still 0; one more than `left` edges to go (R180) -/
  | waking (left : Nat)
  /-- cmd_ready = 1 -/
  | ready
  /-- one command in flight; it completes one more than `left` edges from now (30_encoding.md R61) -/
  | busy (w : CommandWord) (left : Nat)
  deriving DecidableEq, Repr

/-- A block at its ports. `edges` counts rising edges: it only numbers the free values (log 8, 9). The host's list
`core.inputs` is not used here; the pins are the inputs. -/
structure Block where
  core : State
  phase : Phase
  edges : Nat
  deriving DecidableEq, Repr

/-- The phase after a reset edge: ready at once, or after a free, finite number of edges (70_reset_and_hazards.md R180). -/
def wakePhase : Nat → Phase
  | 0 => .ready
  | n + 1 => .waking n

/-- LATENCY of a command accepted at an edge: at least 1 and finite (00_scope.md R6; 70_reset_and_hazards.md R189). -/
def latencyAt (edge : Nat) : Nat := Config.latencyExtra edge + 1

/-- Acceptance (30_encoding.md R61): the word is sampled and rsp_valid goes to 0. -/
def acceptEdge (w : CommandWord) (k : Block) : Block :=
  { core := { k.core with rspValid := false }, phase := .busy w (latencyAt k.edges - 1), edges := k.edges + 1 }

/-- Completion (30_encoding.md R61): the command's writes and its response take effect together. -/
def completeEdge (w : CommandWord) (k : Block) : Host.Outcome Block Fault Refusal :=
  match acceptWord w k.core with
  | .next t => .next { core := t, phase := .ready, edges := k.edges + 1 }
  | .fault r => .fault r
  | .refused r => .refused r

/-- A rising edge of clk. -/
def clockEdge (p : Pins) (k : Block) : Host.Outcome Block Fault Refusal :=
  if p.rstN then
    match k.phase with
    | .neverReset => .refused .neverReset
    | .waking n => .next { k with phase := wakePhase n, edges := k.edges + 1 }
    | .ready => .next (if p.cmdValid then acceptEdge p.cmdWord k else { k with edges := k.edges + 1 })
    | .busy w (n + 1) => .next { k with phase := .busy w n, edges := k.edges + 1 }
    | .busy w 0 => completeEdge w k
  else .next { core := pulseReset k.core, phase := wakePhase (Config.wakeDelay k.edges), edges := k.edges + 1 }

/-- A sequence of rising edges. -/
def clockEdges : List Pins → Block → Host.Outcome Block Fault Refusal
  | [], k => .next k
  | p :: ps, k =>
    match clockEdge p k with
    | .next k' => clockEdges ps k'
    | .fault r => .fault r
    | .refused r => .refused r

/-- The outputs with rst_n at this value: cmd_ready = rsp_valid = 0 while rst_n = 0 (70_reset_and_hazards.md R180); rsp_err
and rsp_data are free while rsp_valid = 0 (10_state.md R29; log 8); a block never reset has no promised outputs (R181). -/
def portOutputs (rstN : Bool) (k : Block) : Except Refusal Outputs :=
  if k.phase = .neverReset then .error .neverReset
  else
    let valid := rstN && k.core.rspValid
    .ok {
      cmdReady := rstN && decide (k.phase = .ready)
      rspValid := valid
      rspErr := if valid then k.core.rspErr else Config.freeRspErr k.edges
      rspData := if valid then k.core.rspData else Config.freeRspData k.edges
      keyUsable := keyUsable k.core }

end Sys2Proof.Machine
end

