-- ==== Sys2Proof/Safety.lean ====
section
/-! DEFINITION. What a sound state of the block is: the invariants of the spec, in the terms the statements use. -/

namespace Sys2Proof.Machine

/-- A buffer is in canonical form and every written index lies inside it (20_memory.md R40, R45). -/
def Memory.sound (bufBytes : Nat) (m : Memory) : Prop := m.wf ∧ ∀ c ∈ m, c.1 < bufBytes

/-- The latch holds a code that is produced, and an error carries data 0 (30_encoding.md R71; 60_exceptions.md R160, R161, R163). -/
def latchSound (s : State) : Prop :=
  s.rspValid = true →
    s.rspErr ∈ [ErrCode.ok.code, ErrCode.keyParity.code, ErrCode.keyUnusable.code, ErrCode.illegal.code, ErrCode.range.code] ∧
    (s.rspErr ≠ ErrCode.ok.code → s.rspData = 0#32)

/-- The invariants of 10_state.md R24 and R31, the buffers, the parameter's legal range (00_scope.md R6) and the latch. -/
structure State.Sound (s : State) : Prop where
  inverse : s.aInv = scan s.a
  odd : s.a.getLsbD 0 = true
  input : s.inBuf.sound s.bufBytes
  output : s.outBuf.sound s.bufBytes
  size : 1 ≤ s.bufBytes ∧ s.bufBytes ≤ Config.maxBufBytes
  latch : latchSound s

/-- A block that has been reset, with a sound state between commands. -/
structure Block.Sound (k : Block) : Prop where
  core : k.core.Sound
  wasReset : k.phase ≠ .neverReset

/-- How many indices below `n` of IN no command has written since reset. -/
def unwrittenBelow (s : State) (n : Nat) : Nat := ((List.range n).filter (fun i => (s.inBuf.lookup i).isNone)).length

/-- The byte lane `i` of a pass reads: IN[i], or its draw (20_memory.md R52). -/
def laneByte (s : State) (i : Nat) : Byte :=
  match s.inBuf.lookup i with
  | some v => v
  | none => Config.freeByte (s.draws + unwrittenBelow s i)

end Sys2Proof.Machine
end

