-- ==== Sys2Proof/Certificates/Slice0/Obligations.lean ====
section
/-! DEFINITION. The statements for the provers, from the numbered rules of the spec. -/

namespace Sys2Proof.Claims

open Sys2Proof.Machine

/-- The state after a response (OK, d) and nothing else. -/
def ok (d : Word) (s : State) : State := { s with rspValid := true, rspErr := 0#4, rspData := d }

/-- The state after a response (code, 0) and nothing else (60_exceptions.md R160). -/
def failed (code : ErrBits) (s : State) : State := { s with rspValid := true, rspErr := code, rspData := 0#32 }

/-- OP of a word (30_encoding.md R63). -/
abbrev opcode (w : CommandWord) : BitVec 8 := w.extractLsb 39 32

/-- The illegal words, field by field (30_encoding.md R64, R67). -/
abbrev illegalWord (w : CommandWord) : Prop :=
  opcode w = 0x00#8 ∨ 0x0E#8 ≤ opcode w ∨
  ((opcode w = 0x03#8 ∨ opcode w = 0x04#8) ∧ w.extractLsb 31 8 ≠ 0#24) ∨
  ((opcode w = 0x05#8 ∨ opcode w = 0x06#8) ∧ w.extractLsb 31 16 ≠ 0#16) ∨
  (opcode w = 0x07#8 ∧ w.extractLsb 31 24 ≠ 0#8) ∨
  ((opcode w = 0x08#8 ∨ opcode w = 0x09#8) ∧ (w.extractLsb 31 24 ≠ 0#8 ∨ w.extractLsb 7 0 ≠ 0#8)) ∨
  ((opcode w = 0x0A#8 ∨ opcode w = 0x0B#8 ∨ opcode w = 0x0C#8 ∨ opcode w = 0x0D#8) ∧ w.extractLsb 31 0 ≠ 0#32)

/-- A word with this opcode and a non-zero reserved field answers (ERR_ILLEGAL, 0) and nothing else. -/
def strictReserved (op : BitVec 8) (reserved : CommandWord → Prop) : Prop :=
  ∀ w s, opcode w = op → reserved w → acceptWord w s = .next (failed 4#4 s)

/-- The host's next action is a word that decodes to a command with this property. -/
def presents (s : State) (P : Instr → Prop) : Prop :=
  ∃ w rest i, s.inputs = .command w :: rest ∧ decode w = .ok i ∧ P i

/-- The host's next action is a reset, with or without a command in flight. -/
def resets (s : State) : Prop := ∃ rest, s.inputs = .reset :: rest ∨ ∃ w, s.inputs = .abandoned w :: rest

/-- The key registers and RSP_VALID at their reset values, 51, 201, 251 and no response (10_state.md R30), and no byte of IN
or OUT listed, which is the model's form of the contents R30 calls unspecified (log 4). -/
def atReset (t : State) : Prop :=
  t.a = 51#32 ∧ t.b = 201#8 ∧ t.aInv = 251#32 ∧ (∀ i, t.inBuf.lookup i = none) ∧ (∀ i, t.outBuf.lookup i = none) ∧
  t.rspValid = false ∧ readResponse t = .ok none

/-- The host copies OUT[0..n−1] into IN[0..n−1]: RDOUT k, then WRIN k with the low byte of the response, in increasing k
(42_buffer_passes.md R123). -/
def copyOutToIn : Nat → State → Host.Outcome State Fault Refusal
  | 0, s => .next s
  | n + 1, s =>
    match copyOutToIn n s with
    | .fault r => .fault r
    | .refused r => .refused r
    | .next t =>
      match exec (.rdout (BitVec.ofNat 16 n)) t with
      | .fault r => .fault r
      | .refused r => .refused r
      | .next u => exec (.wrin (BitVec.ofNat 16 n) (u.rspData.extractLsb 7 0)) u

/-- A word that cannot change the keys: not SETB, and not SETA with an odd VALUE (70_reset_and_hazards.md R186). -/
abbrev keepsKeys (w : CommandWord) : Prop :=
  opcode w ≠ 0x02#8 ∧ (opcode w = 0x01#8 → w.getLsbD 0 = false)

/-- The integer a number of the source stands for (30_encoding.md R69). -/
def denotes : Number → Int
  | .dec n => n
  | .hex n => n
  | .chr c => c

/-- The range of SETA and SETB (30_encoding.md R69); no character literal. That its second part, 0x0..0xFFFFFFFF, is taken
of hexadecimal numbers only, so that a decimal number above 2147483647 is out of range, is the model's choice (log 11). -/
abbrev allowedValue : Number → Prop
  | .dec n => -2147483648 ≤ n ∧ n ≤ 2147483647
  | .hex n => n ≤ 0xFFFFFFFF
  | .chr _ => False

/-- The range of a byte (30_encoding.md R69): 0..255, or a 7-bit ASCII character. -/
abbrev allowedByte : Number → Prop
  | .dec n => 0 ≤ n ∧ n ≤ 255
  | .hex n => n ≤ 255
  | .chr c => c < 128

/-- The range of a length and of an index (30_encoding.md R69): 0..65535; no character literal. -/
abbrev allowedHalf : Number → Prop
  | .dec n => 0 ≤ n ∧ n ≤ 65535
  | .hex n => n ≤ 65535
  | .chr _ => False

/-- A line of one operand gives this one word for every allowed number, and none for any other number. -/
def assembles (line : Number → AsmLine) (allowed : Number → Prop) (word : Number → CommandWord) : Prop :=
  ∀ n : Number, (allowed n → assembleLine (line n) = some [word n]) ∧ (¬allowed n → assembleLine (line n) = none)

end Sys2Proof.Claims

open Sys2Proof
open Sys2Proof.Machine
open Sys2Proof.Claims

/-! Encoding -/

/-- Decoding the word of a command gives the command back, for every command with every operand at every value. -/
def Obligations.DecodeInvertsEncode : Prop :=
  ∀ i : Instr, decode (encode i) = .ok i

/-- Each legal word has one meaning: encoding the command it decodes to gives the word back. -/
def Obligations.EncodeInvertsDecode : Prop :=
  ∀ (w : CommandWord) (i : Instr), decode w = .ok i → encode i = w

/-- 30_encoding.md R66: a word is the command in a row exactly when (w & mask) = match. -/
def Obligations.OpcodeMapSelectsTheCommand : Prop :=
  ∀ w : CommandWord,
    ((∃ v, decode w = .ok (.seta v)) ↔ w &&& 0xFF00000000#40 = 0x0100000000#40) ∧
    ((∃ v, decode w = .ok (.setb v)) ↔ w &&& 0xFF00000000#40 = 0x0200000000#40) ∧
    ((∃ p, decode w = .ok (.encb p)) ↔ w &&& 0xFFFFFFFF00#40 = 0x0300000000#40) ∧
    ((∃ q, decode w = .ok (.decb q)) ↔ w &&& 0xFFFFFFFF00#40 = 0x0400000000#40) ∧
    ((∃ n, decode w = .ok (.enc n)) ↔ w &&& 0xFFFFFF0000#40 = 0x0500000000#40) ∧
    ((∃ n, decode w = .ok (.dec n)) ↔ w &&& 0xFFFFFF0000#40 = 0x0600000000#40) ∧
    ((∃ i d, decode w = .ok (.wrin i d)) ↔ w &&& 0xFFFF000000#40 = 0x0700000000#40) ∧
    ((∃ i, decode w = .ok (.rdin i)) ↔ w &&& 0xFFFF0000FF#40 = 0x0800000000#40) ∧
    ((∃ i, decode w = .ok (.rdout i)) ↔ w &&& 0xFFFF0000FF#40 = 0x0900000000#40) ∧
    (decode w = .ok .rda ↔ w &&& 0xFFFFFFFFFF#40 = 0x0A00000000#40) ∧
    (decode w = .ok .rdb ↔ w &&& 0xFFFFFFFFFF#40 = 0x0B00000000#40) ∧
    (decode w = .ok .rdinv ↔ w &&& 0xFFFFFFFFFF#40 = 0x0C00000000#40) ∧
    (decode w = .ok .rdstat ↔ w &&& 0xFFFFFFFFFF#40 = 0x0D00000000#40)

/-- 30_encoding.md R65: each operand is its field of the word, unscaled, and every 32-bit pattern is a legal VALUE. -/
def Obligations.OperandsAreTheWordsFields : Prop :=
  (∀ w v, decode w = .ok (.seta v) ∨ decode w = .ok (.setb v) → v = w.extractLsb 31 0) ∧
  (∀ w p, decode w = .ok (.encb p) ∨ decode w = .ok (.decb p) → p = w.extractLsb 7 0) ∧
  (∀ w n, decode w = .ok (.enc n) ∨ decode w = .ok (.dec n) → n = w.extractLsb 15 0) ∧
  (∀ w i d, decode w = .ok (.wrin i d) → i = w.extractLsb 23 8 ∧ d = w.extractLsb 7 0) ∧
  (∀ w i, decode w = .ok (.rdin i) ∨ decode w = .ok (.rdout i) → i = w.extractLsb 23 8) ∧
  (∀ v : BitVec 32, (∃ w, decode w = .ok (.seta v)) ∧ ∃ w, decode w = .ok (.setb v))

/-- 30_encoding.md R67, 60_exceptions.md R165: the words that match no row, and what one does when the block accepts it. -/
def Obligations.IllegalWordsOnlyReportTheError : Prop :=
  ∀ w : CommandWord,
    (illegalWord w ↔ ∃ e, decode w = .error e) ∧
    (illegalWord w → ∀ s, acceptWord w s = .next (failed 4#4 s))

/-- Words of the worked examples of the spec decode to the commands they stand for. -/
def Obligations.SpecWordsDecodeToTheirCommands : Prop :=
  decode 0x0100000003#40 = .ok (.seta 3#32) ∧
  decode 0x02FFFFFFF6#40 = .ok (.setb (BitVec.ofInt 32 (-10))) ∧
  decode 0x03000000FF#40 = .ok (.encb 255#8) ∧
  decode 0x04000000BC#40 = .ok (.decb 188#8) ∧
  decode 0x050000012C#40 = .ok (.enc 300#16) ∧
  decode 0x0600000100#40 = .ok (.dec 256#16) ∧
  decode 0x0700000142#40 = .ok (.wrin 1#16 0x42#8) ∧
  decode 0x0800000300#40 = .ok (.rdin 3#16) ∧
  decode 0x0900010000#40 = .ok (.rdout 256#16) ∧
  decode 0x0A00000000#40 = .ok .rda ∧
  decode 0x0B00000000#40 = .ok .rdb ∧
  decode 0x0C00000000#40 = .ok .rdinv ∧
  decode 0x0D00000000#40 = .ok .rdstat

/-! The step -/

/-- 30_encoding.md R62: accepting a word is exec of the command it decodes to, and a step on a presented word, legal or not,
accepts it in the state without that action. The host's list of actions is the model's choice (log 1, 13). -/
def Obligations.StepRunsTheDecodedCommand : Prop :=
  (∀ w s i, decode w = .ok i → acceptWord w s = exec i s) ∧
  (∀ (s : State) w rest, s.inputs = .command w :: rest → step s = acceptWord w { s with inputs := rest }) ∧
  (∀ s w rest i, s.inputs = .command w :: rest → decode w = .ok i → step s = exec i { s with inputs := rest }) ∧
  (∀ (s : State) nbits w i, decodeTableWord nbits w = some i → step (s.withFetchWord nbits w) = exec i s)

/-- 60_exceptions.md R179: between commands the block is ready and keeps all state. (The step's part, that a step with no
host action left changes nothing, is the model's convention: log 1.) -/
def Obligations.BlockWaitsBetweenCommands : Prop :=
  (∀ s, s.inputs = [] → step s = .next s) ∧
  (∀ k p, k.phase = .ready → p.rstN = true → p.cmdValid = false →
    clockEdge p k = .next { k with edges := k.edges + 1 }) ∧
  (∀ k, k.phase = .ready → ∃ o, portOutputs true k = .ok o ∧ o.cmdReady = true) ∧
  (∀ k k' p, p.rstN = true → (∀ w, k.phase ≠ .busy w 0) → ¬(k.phase = .ready ∧ p.cmdValid = true) →
    clockEdge p k = .next k' → k'.core = k.core)

/-- 70_reset_and_hazards.md R191 (marked there as derived): every accepted command completes with a response, and no step
of the machine stops. -/
def Obligations.EveryCommandCompletesWithAResponse : Prop :=
  (∀ w s, ∃ t r, acceptWord w s = .next t ∧ t.rspValid = true ∧ readResponse t = .ok (some r) ∧
    r.err.code = t.rspErr ∧ r.data = t.rspData) ∧
  (∀ s, ∃ t, step s = .next t)

/-! The modular_inverse_engine and the key setters -/

/-- 40_key_management.md R80: Scan is the first x in 0..254 with (x·v) mod 256 = 1, else 0xFFFF_FFFF. -/
def Obligations.ScanReturnsTheFirstInverse : Prop :=
  ∀ v : Word,
    (∃ x : Nat, x < 255 ∧ ((x : Int) * v.toInt) % 256 = 1 ∧ (∀ y : Nat, y < x → ((y : Int) * v.toInt) % 256 ≠ 1) ∧
      scan v = BitVec.ofNat 32 x) ∨
    ((∀ x : Nat, x < 255 → ((x : Int) * v.toInt) % 256 ≠ 1) ∧ scan v = 0xFFFFFFFF#32)

/-- 40_key_management.md R81 (marked there as derived): the closed form of Scan. -/
def Obligations.ScanHasItsClosedForm : Prop :=
  (∀ u v : Word, u.extractLsb 7 0 = v.extractLsb 7 0 → scan u = scan v) ∧
  (∀ v : Word, v.getLsbD 0 = true → v.extractLsb 7 0 ≠ 0xFF#8 →
    ∃ x : Nat, scan v = BitVec.ofNat 32 x ∧ 1 ≤ x ∧ x ≤ 253 ∧ x % 2 = 1 ∧ (x * v.toNat) % 256 = 1 ∧
      ∀ y : Nat, y < 256 → (y * v.toNat) % 256 = 1 → y = x) ∧
  (∀ v : Word, v.extractLsb 7 0 = 0xFF#8 → scan v = 0xFFFFFFFF#32) ∧
  (∀ v : Word, v.getLsbD 0 = false → scan v = 0xFFFFFFFF#32)

/-- 40_key_management.md R82. Its flag line, marked there as derived, is `SetaDecidesKeyUsable`. -/
def Obligations.SetaStoresTheKeyAndItsInverse : Prop :=
  (∀ v : BitVec 32, decode (0x01#8 ++ v) = .ok (.seta v)) ∧
  (∀ v s, v.getLsbD 0 = false → exec (.seta v) s = .next (failed 2#4 s)) ∧
  (∀ v s, v.getLsbD 0 = true → exec (.seta v) s = .next (ok 0#32 { s with a := v, aInv := scan v }))

/-- 40_key_management.md R82's flag line (marked there as derived): SETA decides KEY_USABLE. -/
def Obligations.SetaDecidesKeyUsable : Prop :=
  ∀ v s, ∃ t, exec (.seta v) s = .next t ∧
    (v.getLsbD 0 = true → (keyUsable t = true ↔ v.extractLsb 7 0 ≠ 0xFF#8)) ∧
    (v.getLsbD 0 = false → keyUsable t = keyUsable s)

/-- 40_key_management.md R83. -/
def Obligations.SetbStoresValueMod256 : Prop :=
  (∀ v : BitVec 32, decode (0x02#8 ++ v) = .ok (.setb v)) ∧
  (∀ v s, ∃ c : Byte, (c.toNat : Int) = v.toInt % 256 ∧ c = v.extractLsb 7 0 ∧
    exec (.setb v) s = .next (ok 0#32 { s with b := c }))

/-- 40_key_management.md R84: the setters are independent, and the pair (A, A_INV) is written whole or not at all. -/
def Obligations.SettersAreIndependent : Prop :=
  (∀ v s t, exec (.seta v) s = .next t →
    t.b = s.b ∧ t.inBuf = s.inBuf ∧ t.outBuf = s.outBuf ∧
    ((t.a = v ∧ t.aInv = scan v) ∨ (t.a = s.a ∧ t.aInv = s.aInv ∧ t.rspErr ≠ 0#4))) ∧
  (∀ v s t, exec (.setb v) s = .next t →
    t.a = s.a ∧ t.aInv = s.aInv ∧ t.inBuf = s.inBuf ∧ t.outBuf = s.outBuf)

/-- 10_state.md R25 (marked there as derived): in a sound state the key is unusable exactly when A[7:0] = 0xFF, and a
usable A_INV is the inverse of A mod 256. -/
def Obligations.KeyIsUnusableExactlyForLowByteFF : Prop :=
  ∀ s : State, s.Sound →
    (keyUsable s = false ↔ s.a.extractLsb 7 0 = 0xFF#8) ∧
    (keyUsable s = true → (s.aInv.toNat * s.a.toNat) % 256 = 1)

/-! The affine_byte_transform -/

/-- 41_affine_transform.md R100, R101 (the low-byte forms rest on the spec's general-knowledge mark): the two byte
functions, as integers and as byte arithmetic; with the sentinel AffineDec gives b − q. -/
def Obligations.AffineFunctionsAreTheirFormulas : Prop :=
  (∀ a b p, ((affineEnc a b p).toNat : Int) = (a.toInt * (p.toNat : Int) + (b.toNat : Int)) % 256 ∧
    affineEnc a b p = a.extractLsb 7 0 * p + b) ∧
  (∀ inv b q, ((affineDec inv b q).toNat : Int) = (inv.toInt * ((q.toNat : Int) - (b.toNat : Int))) % 256 ∧
    affineDec inv b q = inv.extractLsb 7 0 * (q - b)) ∧
  (∀ b q, affineDec 0xFFFFFFFF#32 b q = b - q)

/-- 41_affine_transform.md R103, R105 (marked there as derived): under every odd key, 0xFF included, decryption with
Scan's result inverts encryption, and encryption is a bijection of the bytes. -/
def Obligations.DecryptionInvertsEncryption : Prop :=
  ∀ (a : Word) (b : Byte), a.getLsbD 0 = true →
    (∀ p, affineDec (scan a) b (affineEnc a b p) = p) ∧ Function.Bijective (affineEnc a b)

/-- 41_affine_transform.md R102. -/
def Obligations.EncbEncryptsOneByte : Prop :=
  (∀ p : BitVec 8, decode (0x03#8 ++ 0#24 ++ p) = .ok (.encb p)) ∧
  (∀ p s, s.aInv ≠ 0xFFFFFFFF#32 → ∃ q : Byte, (q.toNat : Int) = (s.a.toInt * (p.toNat : Int) + (s.b.toNat : Int)) % 256 ∧
    exec (.encb p) s = .next (ok (q.setWidth 32) s)) ∧
  (∀ p s, s.aInv = 0xFFFFFFFF#32 → exec (.encb p) s = .next (failed 3#4 s)) ∧
  strictReserved 0x03#8 (fun w => w.extractLsb 31 8 ≠ 0#24)

/-- 41_affine_transform.md R103: no key check. -/
def Obligations.DecbDecryptsOneByte : Prop :=
  (∀ q : BitVec 8, decode (0x04#8 ++ 0#24 ++ q) = .ok (.decb q)) ∧
  (∀ q s, ∃ p : Byte, (p.toNat : Int) = (s.aInv.toInt * ((q.toNat : Int) - (s.b.toNat : Int))) % 256 ∧
    exec (.decb q) s = .next (ok (p.setWidth 32) s)) ∧
  strictReserved 0x04#8 (fun w => w.extractLsb 31 8 ≠ 0#24)

/-- 41_affine_transform.md R105 and 70_reset_and_hazards.md R186 (derived there): from a sound state with a usable key,
ENCB p, then any commands that cannot change the keys (a SETA that fails among them), then DECB of ENCB's result gives p. -/
def Obligations.ByteRoundTripThroughCommands : Prop :=
  ∀ (s : State) (p : Byte) (ws : List CommandWord), s.Sound → keyUsable s = true → (∀ w ∈ ws, keepsKeys w) →
    ∃ (q : Byte) (rs : List Response) (t u : State),
      runCommands (encode (.encb p) :: ws) s = .next ({ err := .ok, data := q.setWidth 32 } :: rs, t) ∧
      rs.length = ws.length ∧
      runCommands [encode (.decb q)] t = .next ([{ err := .ok, data := p.setWidth 32 }], u)

/-! Whole-buffer passes -/

/-- 42_buffer_passes.md R120. Lane i reads IN[i], or its draw where IN[i] is unwritten (20_memory.md R52; the draw is a free
value, log 4, 5): `laneByte`. -/
def Obligations.EncEncryptsTheLanes : Prop :=
  (∀ n : BitVec 16, decode (0x05#8 ++ 0#16 ++ n) = .ok (.enc n)) ∧
  (∀ n s, s.bufBytes < n.toNat → exec (.enc n) s = .next (failed 5#4 s)) ∧
  (∀ n s, n.toNat ≤ s.bufBytes → s.aInv = 0xFFFFFFFF#32 → exec (.enc n) s = .next (failed 3#4 s)) ∧
  (∀ n s, n.toNat ≤ s.bufBytes → s.aInv ≠ 0xFFFFFFFF#32 → ∃ m : Memory,
    exec (.enc n) s =
      .next (ok (n.setWidth 32) { s with outBuf := m, draws := s.draws + unwrittenBelow s n.toNat }) ∧
    (∀ i, i < n.toNat → ∃ q : Byte, m.lookup i = some q ∧
      (q.toNat : Int) = (s.a.toInt * ((laneByte s i).toNat : Int) + (s.b.toNat : Int)) % 256) ∧
    (∀ i, n.toNat ≤ i → m.lookup i = s.outBuf.lookup i)) ∧
  strictReserved 0x05#8 (fun w => w.extractLsb 31 16 ≠ 0#16)

/-- 42_buffer_passes.md R121: no key check. Lanes over unwritten bytes as in `EncEncryptsTheLanes` (log 4, 5). -/
def Obligations.DecDecryptsTheLanes : Prop :=
  (∀ n : BitVec 16, decode (0x06#8 ++ 0#16 ++ n) = .ok (.dec n)) ∧
  (∀ n s, s.bufBytes < n.toNat → exec (.dec n) s = .next (failed 5#4 s)) ∧
  (∀ n s, n.toNat ≤ s.bufBytes → ∃ m : Memory,
    exec (.dec n) s =
      .next (ok (n.setWidth 32) { s with outBuf := m, draws := s.draws + unwrittenBelow s n.toNat }) ∧
    (∀ i, i < n.toNat → ∃ p : Byte, m.lookup i = some p ∧
      (p.toNat : Int) = (s.aInv.toInt * (((laneByte s i).toNat : Int) - (s.b.toNat : Int))) % 256) ∧
    (∀ i, n.toNat ≤ i → m.lookup i = s.outBuf.lookup i)) ∧
  strictReserved 0x06#8 (fun w => w.extractLsb 31 16 ≠ 0#16)

/-- 42_buffer_passes.md R122 (derived there): a lane depends on its IN byte and the keys only. Two passes of any lengths in
any two states with the same keys, at any two lanes that hold the same byte, give the same OUT byte. -/
def Obligations.LanesDependOnTheirByteAndTheKeysOnly : Prop :=
  ∀ (s s' t t' : State) (n n' : BitVec 16) (i i' : Nat) (v : Byte),
    s.a = s'.a → s.b = s'.b → s.aInv = s'.aInv →
    i < n.toNat → i' < n'.toNat → s.inBuf.lookup i = some v → s'.inBuf.lookup i' = some v →
    ((exec (.enc n) s = .next t ∧ exec (.enc n') s' = .next t') ∨ (exec (.dec n) s = .next t ∧ exec (.dec n') s' = .next t')) →
    t.rspErr = 0#4 → t'.rspErr = 0#4 → ∃ q, t.outBuf.lookup i = some q ∧ t'.outBuf.lookup i' = some q

/-- 42_buffer_passes.md R123 (derived there): ENC n, the host's copy of OUT into IN, then DEC n gives back the bytes that
ENC read. A byte that ENC read from an unwritten index is the model's draw, `laneByte` (a free value, log 4, 5). -/
def Obligations.BufferRoundTrip : Prop :=
  ∀ (s : State) (n : BitVec 16), s.Sound → keyUsable s = true → n.toNat ≤ s.bufBytes →
    ∃ t u v, exec (.enc n) s = .next t ∧ copyOutToIn n.toNat t = .next u ∧ exec (.dec n) u = .next v ∧
      v.rspErr = 0#4 ∧ ∀ i, i < n.toNat → v.outBuf.lookup i = some (laneByte s i)

/-! Buffer access and read-back -/

/-- 43_access.md R140. -/
def Obligations.WrinWritesOneByte : Prop :=
  (∀ (i : BitVec 16) (d : BitVec 8), decode (0x07#8 ++ 0#8 ++ i ++ d) = .ok (.wrin i d)) ∧
  (∀ i d s, s.bufBytes ≤ i.toNat → exec (.wrin i d) s = .next (failed 5#4 s)) ∧
  (∀ i d s, i.toNat < s.bufBytes → ∃ m : Memory, exec (.wrin i d) s = .next (ok 0#32 { s with inBuf := m }) ∧
    m.lookup i.toNat = some d ∧ ∀ j, j ≠ i.toNat → m.lookup j = s.inBuf.lookup j) ∧
  strictReserved 0x07#8 (fun w => w.extractLsb 31 24 ≠ 0#8)

/-- 43_access.md R141; an unwritten byte reads as a draw (20_memory.md R52; a free value, log 4, 5). -/
def Obligations.RdinReadsOneByteOfIn : Prop :=
  (∀ i : BitVec 16, decode (0x08#8 ++ 0#8 ++ i ++ 0#8) = .ok (.rdin i)) ∧
  (∀ i s, s.bufBytes ≤ i.toNat → exec (.rdin i) s = .next (failed 5#4 s)) ∧
  (∀ i s v, i.toNat < s.bufBytes → s.inBuf.lookup i.toNat = some v →
    exec (.rdin i) s = .next (ok (v.setWidth 32) s)) ∧
  (∀ i s, i.toNat < s.bufBytes → s.inBuf.lookup i.toNat = none →
    exec (.rdin i) s = .next (ok ((Config.freeByte s.draws).setWidth 32) { s with draws := s.draws + 1 })) ∧
  strictReserved 0x08#8 (fun w => w.extractLsb 31 24 ≠ 0#8 ∨ w.extractLsb 7 0 ≠ 0#8)

/-- 43_access.md R142; an unwritten byte reads as a draw (20_memory.md R52; a free value, log 4, 5). -/
def Obligations.RdoutReadsOneByteOfOut : Prop :=
  (∀ i : BitVec 16, decode (0x09#8 ++ 0#8 ++ i ++ 0#8) = .ok (.rdout i)) ∧
  (∀ i s, s.bufBytes ≤ i.toNat → exec (.rdout i) s = .next (failed 5#4 s)) ∧
  (∀ i s v, i.toNat < s.bufBytes → s.outBuf.lookup i.toNat = some v →
    exec (.rdout i) s = .next (ok (v.setWidth 32) s)) ∧
  (∀ i s, i.toNat < s.bufBytes → s.outBuf.lookup i.toNat = none →
    exec (.rdout i) s = .next (ok ((Config.freeByte s.draws).setWidth 32) { s with draws := s.draws + 1 })) ∧
  strictReserved 0x09#8 (fun w => w.extractLsb 31 24 ≠ 0#8 ∨ w.extractLsb 7 0 ≠ 0#8)

/-- 43_access.md R143: all 32 bits as stored. -/
def Obligations.RdaReadsTheStoredKey : Prop :=
  decode 0x0A00000000#40 = .ok .rda ∧ (∀ s, exec .rda s = .next (ok s.a s)) ∧
  strictReserved 0x0A#8 (fun w => w.extractLsb 31 0 ≠ 0#32)

/-- 43_access.md R144. -/
def Obligations.RdbReadsTheReducedKey : Prop :=
  decode 0x0B00000000#40 = .ok .rdb ∧ (∀ s, exec .rdb s = .next (ok (s.b.setWidth 32) s)) ∧
  strictReserved 0x0B#8 (fun w => w.extractLsb 31 0 ≠ 0#32)

/-- 43_access.md R145. -/
def Obligations.RdinvReadsTheStoredInverse : Prop :=
  decode 0x0C00000000#40 = .ok .rdinv ∧ (∀ s, exec .rdinv s = .next (ok s.aInv s)) ∧
  strictReserved 0x0C#8 (fun w => w.extractLsb 31 0 ≠ 0#32)

/-- 43_access.md R146 with the STATUS word of 10_state.md R26: bit 0 is KEY_USABLE, bits 31:1 are 0. -/
def Obligations.RdstatReadsTheStatusWord : Prop :=
  decode 0x0D00000000#40 = .ok .rdstat ∧
  (∀ s, exec .rdstat s = .next (ok (if s.aInv = 0xFFFFFFFF#32 then 0#32 else 1#32) s)) ∧
  strictReserved 0x0D#8 (fun w => w.extractLsb 31 0 ≠ 0#32)

/-- 20_memory.md R47, R48: RDIN after WRIN returns the byte, every other byte of IN and all of OUT read as before, and
repeating the WRIN leaves the same state. -/
def Obligations.WrittenByteReadsBack : Prop :=
  ∀ (s : State) (i : BitVec 16) (d : Byte), i.toNat < s.bufBytes →
    ∃ t, exec (.wrin i d) s = .next t ∧ exec (.rdin i) t = .next (ok (d.setWidth 32) t) ∧
      exec (.wrin i d) t = .next t ∧ t.outBuf = s.outBuf ∧
      ∀ j : Nat, j ≠ i.toNat → t.inBuf.lookup j = s.inBuf.lookup j

/-- 20_memory.md R47: the six read commands change the response latch only (and, in this model, the draw counter where the
byte is unwritten: log 5); a read that drew nothing returns the same response when repeated. -/
def Obligations.ReadsHaveNoSideEffect : Prop :=
  ∀ (s : State) (i : Instr),
    ((∃ j, i = .rdin j) ∨ (∃ j, i = .rdout j) ∨ i = .rda ∨ i = .rdb ∨ i = .rdinv ∨ i = .rdstat) →
    ∃ t, exec i s = .next t ∧
      { t with rspValid := s.rspValid, rspErr := s.rspErr, rspData := s.rspData, draws := s.draws } = s ∧
      (t.draws = s.draws → exec i t = .next t)

/-- 20_memory.md R52, of RDIN and RDOUT: each read of an unwritten byte is a draw of its own, and the read does not write the
byte. That the draws are free values and are numbered one after the other is the model's choice (log 4, 5). -/
def Obligations.UnwrittenReadsAreSeparateDraws : Prop :=
  ∀ (s : State) (i : BitVec 16), i.toNat < s.bufBytes →
    (s.inBuf.lookup i.toNat = none →
      ∃ t u, exec (.rdin i) s = .next t ∧ exec (.rdin i) t = .next u ∧
        t.rspData = (Config.freeByte s.draws).setWidth 32 ∧ u.rspData = (Config.freeByte (s.draws + 1)).setWidth 32 ∧
        t.inBuf = s.inBuf ∧ u.inBuf = s.inBuf) ∧
    (s.outBuf.lookup i.toNat = none →
      ∃ t u, exec (.rdout i) s = .next t ∧ exec (.rdout i) t = .next u ∧
        t.rspData = (Config.freeByte s.draws).setWidth 32 ∧ u.rspData = (Config.freeByte (s.draws + 1)).setWidth 32 ∧
        t.outBuf = s.outBuf ∧ u.outBuf = s.outBuf)

/-! Errors -/

/-- 60_exceptions.md R160: an error changes the response latch only, its data is 0, and the next command runs as it would
have without it. -/
def Obligations.ErrorsLeaveTheStateUnchanged : Prop :=
  ∀ w s t, acceptWord w s = .next t → t.rspErr ≠ 0#4 →
    t = failed t.rspErr s ∧ ∀ w', acceptWord w' t = acceptWord w' s

/-- 60_exceptions.md R163 to R166: which word in which state raises which code, and that an error leaves the state. -/
def Obligations.ErrorCausesAreExact : Prop :=
  ∀ w s t, acceptWord w s = .next t →
    (t.rspErr = 0#4 ∨ t.rspErr = 2#4 ∨ t.rspErr = 3#4 ∨ t.rspErr = 4#4 ∨ t.rspErr = 5#4) ∧
    (t.rspErr = 2#4 ↔ ∃ v, decode w = .ok (.seta v) ∧ v.getLsbD 0 = false) ∧
    (t.rspErr = 3#4 ↔ s.aInv = 0xFFFFFFFF#32 ∧
      ((∃ p, decode w = .ok (.encb p)) ∨ ∃ n, decode w = .ok (.enc n) ∧ n.toNat ≤ s.bufBytes)) ∧
    (t.rspErr = 4#4 ↔ illegalWord w) ∧
    (t.rspErr = 5#4 ↔
      (∃ i, ((∃ d, decode w = .ok (.wrin i d)) ∨ decode w = .ok (.rdin i) ∨ decode w = .ok (.rdout i)) ∧
        s.bufBytes ≤ i.toNat) ∨
      ∃ n, (decode w = .ok (.enc n) ∨ decode w = .ok (.dec n)) ∧ s.bufBytes < n.toNat) ∧
    (t.rspErr ≠ 0#4 → t = failed t.rspErr s)

/-- 60_exceptions.md R167: ERR_ILLEGAL comes before ERR_RANGE, which comes before the key errors, and no command can raise
both key errors. -/
def Obligations.ErrorPriority : Prop :=
  (∀ w s, illegalWord w → acceptWord w s = .next (failed 4#4 s)) ∧
  (∀ n s, s.bufBytes < n.toNat → s.aInv = 0xFFFFFFFF#32 → acceptWord (encode (.enc n)) s = .next (failed 5#4 s)) ∧
  (∀ n s, n.toNat ≤ s.bufBytes → s.aInv = 0xFFFFFFFF#32 → acceptWord (encode (.enc n)) s = .next (failed 3#4 s)) ∧
  (∀ w, ¬((∃ s t, acceptWord w s = .next t ∧ t.rspErr = 2#4) ∧ ∃ s t, acceptWord w s = .next t ∧ t.rspErr = 3#4))

/-! The whole machine -/

/-- 10_state.md R20's column 'written by', over every step, with the conditions of its writers' rules (40_key_management.md
R82, R83; 20_memory.md R41, R42, R45; 70_reset_and_hazards.md R180, R182): only these events change each piece of state.
That a reset is an action of the host's list and that the list loses its head (log 1, 2), that BUF_BYTES is a field that
nothing changes (log 3), and that the draw counter never goes down (log 5) are the model's choices. -/
def Obligations.EachStateItemHasItsWriters : Prop :=
  ∀ s t, step s = .next t →
    (t.a ≠ s.a ∨ t.aInv ≠ s.aInv ∨ keyUsable t ≠ keyUsable s →
      resets s ∨ presents s (fun i => ∃ v, i = .seta v ∧ v.getLsbD 0 = true ∧ t.a = v)) ∧
    (t.b ≠ s.b → resets s ∨ presents s (fun i => ∃ v, i = .setb v)) ∧
    (t.inBuf ≠ s.inBuf → resets s ∨ presents s (fun i => ∃ j d, i = .wrin j d ∧ j.toNat < s.bufBytes)) ∧
    (t.outBuf ≠ s.outBuf → resets s ∨ presents s (fun i => ∃ n, (i = .enc n ∨ i = .dec n) ∧ n.toNat ≤ s.bufBytes)) ∧
    (t.bufBytes = s.bufBytes ∧ t.inputs = s.inputs.tail ∧ s.draws ≤ t.draws)

/-- 70_reset_and_hazards.md R190: a run answers one response per command, in acceptance order; a run of one command answers
the response its acceptance leaves in the latch, and its state; and runs compose. -/
def Obligations.RunsAnswerOneResponsePerCommand : Prop :=
  (∀ ws s, ∃ rs t, runCommands ws s = .next (rs, t) ∧ rs.length = ws.length) ∧
  (∀ s, runCommands [] s = .next ([], s)) ∧
  (∀ w s t r, acceptWord w s = .next t → readResponse t = .ok (some r) → runCommands [w] s = .next ([r], t)) ∧
  (∀ ws vs s rs t qs u, runCommands ws s = .next (rs, t) → runCommands vs t = .next (qs, u) →
    runCommands (ws ++ vs) s = .next (rs ++ qs, u))

/-- 10_state.md R30: the reset values the spec gives, KEY_USABLE and STATUS marked there as derived. That no byte of IN or
OUT is listed is the model's form of unspecified contents (log 4). -/
def Obligations.ResetStateHasTheSpecsValues : Prop :=
  atReset State.reset ∧ keyUsable State.reset = true ∧ exec .rdstat State.reset = .next (ok 1#32 State.reset)

/-- 70_reset_and_hazards.md R180, R182: a reset, with or without a command in flight, leaves the reset values and no
response. That a reset is an action of the host's list, with or without a command in flight, and that BUF_BYTES and the
rest of that list stay, is the model's choice (log 1, 2, 3); that no byte of IN or OUT is listed after it is the model's form
of unspecified contents (log 4). -/
def Obligations.ResetAbandonsTheCommandInFlight : Prop :=
  ∀ (s : State) (h : HostInput) (rest : List HostInput), (h = .reset ∨ ∃ w, h = .abandoned w) → s.inputs = h :: rest →
    ∃ t, step s = .next t ∧ atReset t ∧ t.bufBytes = s.bufBytes ∧ t.inputs = rest

/-- The state after reset meets the invariants (10_state.md R24, R31). -/
def Obligations.ResetStateIsSound : Prop :=
  State.Sound State.reset

/-- Every step keeps the invariants, from every sound state: A_INV = Scan(A), A odd, both buffers in canonical form and
inside BUF_BYTES, and the latch (10_state.md R24, R31; 30_encoding.md R71). -/
def Obligations.EveryStepKeepsTheStateSound : Prop :=
  ∀ s t : State, s.Sound → step s = .next t → t.Sound

/-! The ports -/

/-- 30_encoding.md R61: from acceptance on, whatever the host drives, cmd_ready and rsp_valid are 0 and nothing else is
accepted; LATENCY ≥ 1 edges later the command's writes and its response take effect together, as one step of the block;
they hold until the next acceptance. That LATENCY is a free value of the edge number is the model's choice (log 9). -/
def Obligations.HandshakeRefinesTheStep : Prop :=
  ∀ (k : Block) (w : CommandWord) (ps : List Pins), k.phase = .ready → (∀ p ∈ ps, p.rstN = true) →
    1 ≤ latencyAt k.edges ∧
    (ps.length < latencyAt k.edges → ∃ k' o,
      clockEdges ({ rstN := true, cmdValid := true, cmdWord := w } :: ps) k = .next k' ∧
      k'.core = { k.core with rspValid := false } ∧
      portOutputs true k' = .ok o ∧ o.cmdReady = false ∧ o.rspValid = false) ∧
    (ps.length = latencyAt k.edges → ∃ t k' o,
      acceptWord w k.core = .next t ∧
      clockEdges ({ rstN := true, cmdValid := true, cmdWord := w } :: ps) k = .next k' ∧
      k'.core = t ∧ k'.phase = .ready ∧
      portOutputs true k' = .ok o ∧ o.cmdReady = true ∧ o.rspValid = true ∧ o.rspErr = t.rspErr ∧ o.rspData = t.rspData ∧
      ∀ qs : List Pins, (∀ q ∈ qs, q.rstN = true ∧ q.cmdValid = false) →
        clockEdges qs k' = .next { k' with edges := k'.edges + qs.length })

/-- 70_reset_and_hazards.md R180, R182: a rising edge with rst_n = 0 gives the reset values and no response, in any phase, so
also with a command in flight; cmd_ready and rsp_valid are 0 while rst_n = 0; after the release cmd_ready becomes 1 after a
finite number of edges. That no byte of IN or OUT is listed after a reset is the model's form of unspecified contents
(log 4), and that the wake is a free value of the edge number is the model's form too (log 9). -/
def Obligations.ResetEdgeResetsAndTheBlockWakes : Prop :=
  ∀ (k : Block) (p : Pins), p.rstN = false →
    ∃ k' o, clockEdge p k = .next k' ∧ atReset k'.core ∧
      portOutputs false k' = .ok o ∧ o.cmdReady = false ∧ o.rspValid = false ∧
      ∃ n : Nat, ∀ ps : List Pins, ps.length = n → (∀ q ∈ ps, q.rstN = true) →
        ∃ k'' o', clockEdges ps k' = .next k'' ∧ k''.core = k'.core ∧ portOutputs true k'' = .ok o' ∧ o'.cmdReady = true

/-- 70_reset_and_hazards.md R181: of a block never reset the spec makes no promise; the model refuses its edges and outputs
by name (log 10). -/
def Obligations.BlockNeverResetIsRefused : Prop :=
  ∀ (k : Block) (p : Pins), k.phase = .neverReset →
    (p.rstN = true → clockEdge p k = .refused .neverReset) ∧ ∀ r, portOutputs r k = .error .neverReset

/-- 30_encoding.md R60, 10_state.md R25, R29: the outputs show the latch while RSP_VALID = 1, a free value otherwise
(log 8), and key_usable shows the flag. -/
def Obligations.OutputsShowTheLatchAndTheFlag : Prop :=
  ∀ k : Block, k.phase ≠ .neverReset → ∃ o, portOutputs true k = .ok o ∧ o.rspValid = k.core.rspValid ∧
    (k.core.rspValid = true → o.rspErr = k.core.rspErr ∧ o.rspData = k.core.rspData) ∧
    (k.core.rspValid = false → o.rspErr = Config.freeRspErr k.edges ∧ o.rspData = Config.freeRspData k.edges) ∧
    (o.keyUsable = true ↔ k.core.aInv ≠ 0xFFFFFFFF#32)

/-- Every edge, with any pins, keeps the block sound; a sound block never stops (10_state.md R24, R31, R32; 20_memory.md R46). -/
def Obligations.EveryEdgeKeepsTheBlockSound : Prop :=
  ∀ (k : Block) (p : Pins), k.Sound → ∃ k', clockEdge p k = .next k' ∧ k'.Sound

/-! The assembler -/

/-- 30_encoding.md R70: the three pseudo-instructions and their expansions. -/
def Obligations.PseudoInstructionsExpand : Prop :=
  (∀ a b : BitVec 32, assembleLine (.setkey (.dec a.toInt) (.dec b.toInt)) = some [encode (.seta a), encode (.setb b)]) ∧
  (∀ (i : Nat) (bs : List Byte), i < 65536 → i + bs.length ≤ 65536 → ∃ ws, assembleLine (.wrstr (.dec i) bs) = some ws ∧
    ws.length = bs.length ∧
    ∀ k v, bs[k]? = some v → ws[k]? = some (encode (.wrin (BitVec.ofNat 16 (i + k)) v))) ∧
  (∀ i n : Nat, i < 65536 → i + n ≤ 65536 → ∃ ws, assembleLine (.rdbuf (.dec i) (.dec n)) = some ws ∧
    ws.length = n ∧ ∀ k, k < n → ws[k]? = some (encode (.rdout (BitVec.ofNat 16 (i + k)))))

/-- 30_encoding.md R69: for each operand form and every number (decimal, hexadecimal or character literal), the word the
assembler gives when the number is in range, and that it gives none otherwise. That SETA and SETB take no decimal number
above 2147483647, `allowedValue`, is the model's choice (log 11). -/
def Obligations.AssemblerChecksTheOperandRanges : Prop :=
  assembles .seta allowedValue (fun n => 0x01#8 ++ BitVec.ofInt 32 (denotes n)) ∧
  assembles .setb allowedValue (fun n => 0x02#8 ++ BitVec.ofInt 32 (denotes n)) ∧
  assembles .encb allowedByte (fun n => 0x03#8 ++ 0#24 ++ BitVec.ofInt 8 (denotes n)) ∧
  assembles .decb allowedByte (fun n => 0x04#8 ++ 0#24 ++ BitVec.ofInt 8 (denotes n)) ∧
  assembles .enc allowedHalf (fun n => 0x05#8 ++ 0#16 ++ BitVec.ofInt 16 (denotes n)) ∧
  assembles .dec allowedHalf (fun n => 0x06#8 ++ 0#16 ++ BitVec.ofInt 16 (denotes n)) ∧
  (∀ i d : Number,
    (allowedHalf i ∧ allowedByte d → assembleLine (.wrin i d) =
      some [0x07#8 ++ 0#8 ++ BitVec.ofInt 16 (denotes i) ++ BitVec.ofInt 8 (denotes d)]) ∧
    (¬(allowedHalf i ∧ allowedByte d) → assembleLine (.wrin i d) = none)) ∧
  assembles .rdin allowedHalf (fun n => 0x08#8 ++ 0#8 ++ BitVec.ofInt 16 (denotes n) ++ 0#8) ∧
  assembles .rdout allowedHalf (fun n => 0x09#8 ++ 0#8 ++ BitVec.ofInt 16 (denotes n) ++ 0#8) ∧
  assembleLine .rda = some [0x0A00000000#40] ∧
  assembleLine .rdb = some [0x0B00000000#40] ∧
  assembleLine .rdinv = some [0x0C00000000#40] ∧
  assembleLine .rdstat = some [0x0D00000000#40] ∧
  (∀ w : Nat, (w < 2 ^ 40 → assembleLine (.word w) = some [BitVec.ofNat 40 w]) ∧
    (¬w < 2 ^ 40 → assembleLine (.word w) = none))
end

