-- ==== Sys2Proof/Laws/Arithmetic.lean ====
section
/-! SUPPORT. The arithmetic of the block in Z mod 256: the integer formulas of the spec as byte arithmetic, and the scan. -/

namespace Sys2Proof.Machine

/-- The low byte of a word, as a byte. -/
def lowByte (v : Word) : Byte := v.setWidth 8

theorem toInt_mod_256 (v : Word) : v.toInt % 256 = ((lowByte v).toNat : Int) := by
  have h := v.isLt
  rw [BitVec.toInt_eq_toNat_cond]
  simp only [lowByte, BitVec.toNat_setWidth]
  split <;> omega

theorem toNat_byteOfInt (x : Int) : ((byteOfInt x).toNat : Int) = x % 256 := by
  have h0 := Int.emod_nonneg x (by norm_num : (256 : Int) ≠ 0)
  have h1 := Int.emod_lt_of_pos x (by norm_num : (0 : Int) < 256)
  simp only [byteOfInt, Config.modulus, BitVec.toNat_ofInt]
  omega

/-- A byte is determined by its integer mod 256. -/
theorem byteOfInt_eq {x : Int} {c : Byte} (h : x % 256 = (c.toNat : Int)) : byteOfInt x = c := by
  apply BitVec.eq_of_toNat_eq
  have := toNat_byteOfInt x
  omega

/-- AffineEnc is multiply-accumulate on the low byte of A (41_affine_transform.md R100). -/
theorem affineEnc_eq (a : Word) (b p : Byte) : affineEnc a b p = lowByte a * p + b := by
  apply byteOfInt_eq
  rw [BitVec.toNat_add, BitVec.toNat_mul]
  push_cast
  rw [Int.add_emod, Int.mul_emod, toInt_mod_256]
  simp [Int.add_emod, Int.mul_emod]

/-- AffineDec is multiplication of the low byte of A_INV with the byte difference (41_affine_transform.md R101). -/
theorem affineDec_eq (inv : Word) (b q : Byte) : affineDec inv b q = lowByte inv * (q - b) := by
  apply byteOfInt_eq
  rw [BitVec.toNat_mul, BitVec.toNat_sub]
  have hb := b.isLt
  push_cast [Nat.cast_sub hb.le]
  rw [Int.mul_emod, toInt_mod_256]
  simp only [Int.mul_emod, Int.emod_emod_of_dvd, dvd_refl]
  congr 2
  omega

theorem scanFrom_cases (v : Word) (n x : Nat) :
    (∃ y, x ≤ y ∧ y < x + n ∧ ((y : Int) * v.toInt) % 256 = 1 ∧
        (∀ z, x ≤ z → z < y → ((z : Int) * v.toInt) % 256 ≠ 1) ∧ scanFrom v n x = BitVec.ofNat 32 y) ∨
      ((∀ z, x ≤ z → z < x + n → ((z : Int) * v.toInt) % 256 ≠ 1) ∧ scanFrom v n x = Config.sentinel) := by
  induction n generalizing x with
  | zero => exact .inr ⟨fun z h1 h2 => by omega, rfl⟩
  | succ n ih =>
    by_cases h : ((x : Int) * v.toInt) % 256 = 1
    · refine .inl ⟨x, le_refl x, by omega, h, fun z h1 h2 => by omega, ?_⟩
      simp [scanFrom, Config.modulus, h]
    · have hs : scanFrom v (n + 1) x = scanFrom v n (x + 1) := by simp [scanFrom, Config.modulus, h]
      rw [hs]
      rcases ih (x + 1) with ⟨y, h1, h2, h3, h4, h5⟩ | ⟨h1, h2⟩
      · refine .inl ⟨y, by omega, by omega, h3, fun z hz hzy => ?_, h5⟩
        rcases Nat.eq_or_lt_of_le hz with rfl | hz
        · exact h
        · exact h4 z hz hzy
      · refine .inr ⟨fun z hz hzn => ?_, h2⟩
        rcases Nat.eq_or_lt_of_le hz with rfl | hz
        · exact h
        · exact h1 z hz (by omega)

theorem scanFrom_congr {u v : Word} (h : lowByte u = lowByte v) (n x : Nat) : scanFrom u n x = scanFrom v n x := by
  induction n generalizing x with
  | zero => rfl
  | succ n ih =>
    have hm : ((x : Int) * u.toInt) % Config.modulus = ((x : Int) * v.toInt) % Config.modulus := by
      simp only [Config.modulus]
      rw [Int.mul_emod, toInt_mod_256, h, ← toInt_mod_256, ← Int.mul_emod]
    simp only [scanFrom, hm, ih]

/-- Scan depends only on v[7:0] (40_key_management.md R81). -/
theorem scan_congr {u v : Word} (h : lowByte u = lowByte v) : scan u = scan v := scanFrom_congr h _ _

theorem lowByte_setWidth (c : Byte) : lowByte (c.setWidth 32) = c := by
  simp [lowByte, BitVec.setWidth_setWidth_of_le]

theorem scan_eq_scan_lowByte (v : Word) : scan v = scan ((lowByte v).setWidth 32) :=
  scan_congr (lowByte_setWidth _).symm

/-- The 256 cases of 40_key_management.md R81. -/
theorem scan_byte_cases : ∀ c : Byte,
    if c.getLsbD 0 = false ∨ c = 0xFF#8 then scan (c.setWidth 32) = Config.sentinel
    else lowByte (scan (c.setWidth 32)) * c = 1#8 ∧ 1 ≤ (scan (c.setWidth 32)).toNat ∧ (scan (c.setWidth 32)).toNat ≤ 253 ∧
      (scan (c.setWidth 32)).getLsbD 0 = true := by
  decide +kernel

theorem lowByte_getLsbD_zero (v : Word) : (lowByte v).getLsbD 0 = v.getLsbD 0 := by
  simp [lowByte]

/-- The low byte of A_INV inverts the low byte of every odd key, the sentinel's low byte 0xFF included
(40_key_management.md R81; 41_affine_transform.md R103). -/
theorem lowByte_scan_mul {v : Word} (h : v.getLsbD 0 = true) : lowByte (scan v) * lowByte v = 1#8 := by
  have hc := scan_byte_cases (lowByte v)
  rw [← scan_eq_scan_lowByte, lowByte_getLsbD_zero, h] at hc
  by_cases hf : lowByte v = 0xFF#8
  · rw [if_pos (.inr hf)] at hc
    rw [hc, hf]
    decide
  · rw [if_neg (by simp [hf])] at hc
    exact hc.1

/-- Scan answers the sentinel exactly for even values and for v[7:0] = 0xFF (40_key_management.md R81). -/
theorem scan_eq_sentinel_iff (v : Word) : scan v = Config.sentinel ↔ v.getLsbD 0 = false ∨ lowByte v = 0xFF#8 := by
  have hc := scan_byte_cases (lowByte v)
  rw [← scan_eq_scan_lowByte, lowByte_getLsbD_zero] at hc
  constructor
  · intro hs
    by_contra hn
    rw [if_neg hn, hs] at hc
    exact absurd hc.2.2.1 (by decide)
  · intro h
    rwa [if_pos h] at hc

/-- Decryption inverts encryption byte by byte under every odd key (41_affine_transform.md R103, R105). -/
theorem affineDec_affineEnc {a : Word} (h : a.getLsbD 0 = true) (b p : Byte) :
    affineDec (scan a) b (affineEnc a b p) = p := by
  rw [affineDec_eq, affineEnc_eq, add_sub_cancel_right, ← mul_assoc, lowByte_scan_mul h]
  exact one_mul p

end Sys2Proof.Machine
end

