-- ==== Sys2Proof/Laws/Decode.lean ====
section
/-! SUPPORT. The fields of each format, read back from the word they were put into. -/

namespace Sys2Proof

/-- The two parts of an appended word, read back. -/
theorem extract_append_low {m n : Nat} (x : BitVec m) (y : BitVec n) : (x ++ y).extractLsb' 0 n = y := by
  apply BitVec.eq_of_getLsbD_eq
  intro i hi
  simp [BitVec.getLsbD_append, hi]

theorem extract_append_high {m n : Nat} (x : BitVec m) (y : BitVec n) : (x ++ y).extractLsb' n m = x := by
  apply BitVec.eq_of_getLsbD_eq
  intro i hi
  simp [BitVec.getLsbD_append, hi]

/-- A field inside the low part of an appended word. -/
theorem extract_append_inside_low {m n : Nat} (x : BitVec m) (y : BitVec n) (t k : Nat) (h : t + k ≤ n) :
    (x ++ y).extractLsb' t k = y.extractLsb' t k := by
  apply BitVec.eq_of_getLsbD_eq
  intro i hi
  have : t + i < n := by omega
  simp [BitVec.getLsbD_append, hi, this]

/-- A field inside the high part of an appended word. -/
theorem extract_append_inside_high {m n : Nat} (x : BitVec m) (y : BitVec n) (t k : Nat) (h : n ≤ t) :
    (x ++ y).extractLsb' t k = x.extractLsb' (t - n) k := by
  apply BitVec.eq_of_getLsbD_eq
  intro i hi
  have h1 : ¬ t + i < n := by omega
  have h2 : t + i - n = t - n + i := by omega
  simp [BitVec.getLsbD_append, hi, h1, h2]

/-- Reading a word's fields in two steps. -/
theorem extract_extract {w : Nat} (x : BitVec w) (s n t m : Nat) (h : t + m ≤ n) :
    (x.extractLsb' s n).extractLsb' t m = x.extractLsb' (s + t) m := by
  apply BitVec.eq_of_getLsbD_eq
  intro i hi
  have : t + i < n := by omega
  simp [hi, this, Nat.add_assoc]

/-- Splitting a word at a bit. -/
theorem append_of_extracts {w : Nat} (m n : Nat) (x : BitVec w) (h : w = m + n) :
    x.extractLsb' n m ++ x.extractLsb' 0 n = x.cast h := by
  apply BitVec.eq_of_getLsbD_eq
  intro i hi
  simp only [BitVec.getLsbD_append, BitVec.getLsbD_extractLsb', BitVec.getLsbD_cast]
  split
  · rename_i h2; simp [h2]
  · rename_i h2
    have : i - n < m := by omega
    simp only [this, decide_true, Bool.true_and]
    congr 1
    omega

theorem strict_ok_iff {z : Bool} {w : CommandWord} {i j : Instr} : strict z w i = .ok j ↔ z = true ∧ i = j := by
  unfold strict
  cases z <;> simp

theorem strict_error_iff {z : Bool} {w : CommandWord} {i : Instr} :
    (∃ e, strict z w i = .error e) ↔ z = false := by
  unfold strict
  cases z <;> simp

end Sys2Proof
end

