-- ==== Sys2Proof/Laws/Memory.lean ====
section
/-! SUPPORT. The laws of one buffer: read after write, the canonical form and the bound are kept. -/

namespace Sys2Proof.Machine

@[simp] theorem lookup_nil (i : Nat) : Memory.lookup [] i = none := rfl

theorem lookup_store_same (m : Memory) (i : Nat) (v : Byte) : (m.store i v).lookup i = some v := by
  induction m with
  | nil => simp [Memory.store, Memory.lookup]
  | cons c m ih =>
    obtain ⟨k, u⟩ := c
    simp only [Memory.store]
    split
    · simp [Memory.lookup]
    · split
      · simp [Memory.lookup]
      · simp [Memory.lookup, ih]; omega

theorem lookup_store_other (m : Memory) {i j : Nat} (v : Byte) (h : j ≠ i) : (m.store i v).lookup j = m.lookup j := by
  induction m with
  | nil => simp [Memory.store, Memory.lookup, h.symm]
  | cons c m ih =>
    obtain ⟨k, u⟩ := c
    simp only [Memory.store]
    split
    · simp [Memory.lookup, h.symm]
    · split
      case isTrue he => subst he; simp [Memory.lookup, h.symm]
      case isFalse => simp [Memory.lookup, ih]

/-- Read after write, at any index. -/
theorem lookup_store (m : Memory) (i j : Nat) (v : Byte) :
    (m.store i v).lookup j = if j = i then some v else m.lookup j := by
  by_cases h : j = i
  · simp [h, lookup_store_same]
  · simp [h, lookup_store_other]

theorem mem_store {m : Memory} {i : Nat} {v : Byte} {c : Host.Cell} (h : c ∈ m.store i v) : c = (i, v) ∨ c ∈ m := by
  induction m with
  | nil => simpa [Memory.store] using h
  | cons d m ih =>
    obtain ⟨k, u⟩ := d
    simp only [Memory.store] at h
    split at h
    · simpa using h
    · split at h
      · simp only [List.mem_cons] at h ⊢; tauto
      · simp only [List.mem_cons] at h ⊢; tauto

theorem store_wf {m : Memory} (i : Nat) (v : Byte) (h : m.wf) : (m.store i v).wf := by
  induction m with
  | nil => simp [Memory.store, Memory.wf]
  | cons d m ih =>
    obtain ⟨k, u⟩ := d
    obtain ⟨hk, hm⟩ := List.pairwise_cons.mp h
    simp only [Memory.store]
    split
    case isTrue hik =>
      refine List.pairwise_cons.mpr ⟨?_, h⟩
      intro c hc
      rcases List.mem_cons.mp hc with rfl | hc
      · exact hik
      · exact lt_trans hik (hk c hc)
    case isFalse hik =>
      split
      case isTrue he => exact List.pairwise_cons.mpr ⟨fun c hc => he ▸ hk c hc, hm⟩
      case isFalse he =>
        refine List.pairwise_cons.mpr ⟨?_, ih hm⟩
        intro c hc
        rcases mem_store hc with rfl | hc
        · exact lt_of_le_of_ne (not_lt.mp hik) (Ne.symm he)
        · exact hk c hc

/-- Every write inside the buffer keeps it sound. -/
theorem store_sound {m : Memory} {n : Nat} (i : Nat) (v : Byte) (hi : i < n) (h : m.sound n) : (m.store i v).sound n := by
  refine ⟨store_wf i v h.1, fun c hc => ?_⟩
  rcases mem_store hc with rfl | hc
  · exact hi
  · exact h.2 c hc

theorem nil_sound (n : Nat) : Memory.sound n [] := ⟨List.Pairwise.nil, by simp⟩

/-- In canonical form, two memories that read alike are equal. -/
theorem lookup_eq_none_of_lt {m : Memory} {i : Nat} (h : ∀ c ∈ m, i < c.1) : m.lookup i = none := by
  induction m with
  | nil => rfl
  | cons d m ih =>
    obtain ⟨k, u⟩ := d
    have hk : i < k := h (k, u) (by simp)
    simp only [Memory.lookup, if_neg (Nat.ne_of_gt hk)]
    exact ih fun c hc => h c (by simp [hc])

theorem memory_ext {m n : Memory} (hm : m.wf) (hn : n.wf) (h : ∀ i, m.lookup i = n.lookup i) : m = n := by
  induction m generalizing n with
  | nil =>
    cases n with
    | nil => rfl
    | cons d n => simpa [Memory.lookup] using h d.1
  | cons c m ih =>
    obtain ⟨k, u⟩ := c
    obtain ⟨hk, hm'⟩ := List.pairwise_cons.mp hm
    cases n with
    | nil => simpa [Memory.lookup] using h k
    | cons d n =>
      obtain ⟨l, w⟩ := d
      obtain ⟨hl, hn'⟩ := List.pairwise_cons.mp hn
      have hkl : k = l := by
        rcases Nat.lt_trichotomy k l with hlt | heq | hgt
        · have := h k
          simp only [Memory.lookup, if_true, if_neg (Nat.ne_of_gt hlt)] at this
          rw [lookup_eq_none_of_lt fun c hc => lt_trans hlt (hl c hc)] at this
          simp at this
        · exact heq
        · have := h l
          simp only [Memory.lookup, if_true, if_neg (Nat.ne_of_gt hgt)] at this
          rw [lookup_eq_none_of_lt fun c hc => lt_trans hgt (hk c hc)] at this
          simp at this
      subst hkl
      have hu : u = w := by simpa [Memory.lookup] using h k
      subst hu
      refine congrArg _ (ih hm' hn' fun i => ?_)
      by_cases hi : k = i
      · subst hi
        rw [lookup_eq_none_of_lt hk, lookup_eq_none_of_lt hl]
      · simpa [Memory.lookup, hi] using h i

end Sys2Proof.Machine
end

