-- ==== Sys2Proof/Laws/State.lean ====
section
/-! SUPPORT. One lemma per field per update of State, each true by unfolding, so that no later proof unfolds an update. -/

namespace Sys2Proof.Machine

@[simp] theorem latch_a (e : ErrCode) (d : Word) (s : State) : (latch e d s).a = s.a := rfl
@[simp] theorem latch_b (e : ErrCode) (d : Word) (s : State) : (latch e d s).b = s.b := rfl
@[simp] theorem latch_aInv (e : ErrCode) (d : Word) (s : State) : (latch e d s).aInv = s.aInv := rfl
@[simp] theorem latch_inBuf (e : ErrCode) (d : Word) (s : State) : (latch e d s).inBuf = s.inBuf := rfl
@[simp] theorem latch_outBuf (e : ErrCode) (d : Word) (s : State) : (latch e d s).outBuf = s.outBuf := rfl
@[simp] theorem latch_rspValid (e : ErrCode) (d : Word) (s : State) : (latch e d s).rspValid = true := rfl
@[simp] theorem latch_rspErr (e : ErrCode) (d : Word) (s : State) : (latch e d s).rspErr = e.code := rfl
@[simp] theorem latch_rspData (e : ErrCode) (d : Word) (s : State) : (latch e d s).rspData = d := rfl
@[simp] theorem latch_bufBytes (e : ErrCode) (d : Word) (s : State) : (latch e d s).bufBytes = s.bufBytes := rfl
@[simp] theorem latch_draws (e : ErrCode) (d : Word) (s : State) : (latch e d s).draws = s.draws := rfl
@[simp] theorem latch_inputs (e : ErrCode) (d : Word) (s : State) : (latch e d s).inputs = s.inputs := rfl

@[simp] theorem buffer_input (s : State) : s.buffer .input = s.inBuf := rfl
@[simp] theorem buffer_output (s : State) : s.buffer .output = s.outBuf := rfl

@[simp] theorem writeByte_a (sp : Space) (i : Nat) (v : Byte) (s : State) : (writeByte sp i v s).a = s.a := by cases sp <;> rfl
@[simp] theorem writeByte_b (sp : Space) (i : Nat) (v : Byte) (s : State) : (writeByte sp i v s).b = s.b := by cases sp <;> rfl
@[simp] theorem writeByte_aInv (sp : Space) (i : Nat) (v : Byte) (s : State) : (writeByte sp i v s).aInv = s.aInv := by
  cases sp <;> rfl
@[simp] theorem writeByte_input_inBuf (i : Nat) (v : Byte) (s : State) : (writeByte .input i v s).inBuf = s.inBuf.store i v := rfl
@[simp] theorem writeByte_input_outBuf (i : Nat) (v : Byte) (s : State) : (writeByte .input i v s).outBuf = s.outBuf := rfl
@[simp] theorem writeByte_output_inBuf (i : Nat) (v : Byte) (s : State) : (writeByte .output i v s).inBuf = s.inBuf := rfl
@[simp] theorem writeByte_output_outBuf (i : Nat) (v : Byte) (s : State) :
    (writeByte .output i v s).outBuf = s.outBuf.store i v := rfl
@[simp] theorem writeByte_rspValid (sp : Space) (i : Nat) (v : Byte) (s : State) : (writeByte sp i v s).rspValid = s.rspValid := by
  cases sp <;> rfl
@[simp] theorem writeByte_rspErr (sp : Space) (i : Nat) (v : Byte) (s : State) : (writeByte sp i v s).rspErr = s.rspErr := by
  cases sp <;> rfl
@[simp] theorem writeByte_rspData (sp : Space) (i : Nat) (v : Byte) (s : State) : (writeByte sp i v s).rspData = s.rspData := by
  cases sp <;> rfl
@[simp] theorem writeByte_bufBytes (sp : Space) (i : Nat) (v : Byte) (s : State) : (writeByte sp i v s).bufBytes = s.bufBytes := by
  cases sp <;> rfl
@[simp] theorem writeByte_draws (sp : Space) (i : Nat) (v : Byte) (s : State) : (writeByte sp i v s).draws = s.draws := by
  cases sp <;> rfl
@[simp] theorem writeByte_inputs (sp : Space) (i : Nat) (v : Byte) (s : State) : (writeByte sp i v s).inputs = s.inputs := by
  cases sp <;> rfl

@[simp] theorem pulseReset_a (s : State) : (pulseReset s).a = 51#32 := rfl
@[simp] theorem pulseReset_b (s : State) : (pulseReset s).b = 201#8 := rfl
@[simp] theorem pulseReset_aInv (s : State) : (pulseReset s).aInv = 251#32 := rfl
@[simp] theorem pulseReset_inBuf (s : State) : (pulseReset s).inBuf = [] := rfl
@[simp] theorem pulseReset_outBuf (s : State) : (pulseReset s).outBuf = [] := rfl
@[simp] theorem pulseReset_rspValid (s : State) : (pulseReset s).rspValid = false := rfl
@[simp] theorem pulseReset_bufBytes (s : State) : (pulseReset s).bufBytes = s.bufBytes := rfl
@[simp] theorem pulseReset_draws (s : State) : (pulseReset s).draws = s.draws := rfl
@[simp] theorem pulseReset_inputs (s : State) : (pulseReset s).inputs = s.inputs := rfl

@[simp] theorem withFetchWord_inputs (s : State) (nbits w : Nat) :
    (s.withFetchWord nbits w).inputs = .command (tableWord nbits w) :: s.inputs := rfl

end Sys2Proof.Machine
end

