-- ==== Sys2Proof/Laws/Passes.lean ====
section
/-! SUPPORT. What one read and one whole-buffer pass do: the byte each lane reads, the draws used, and the frame. -/

namespace Sys2Proof.Machine

@[simp] theorem unwrittenBelow_zero (s : State) : unwrittenBelow s 0 = 0 := rfl

theorem unwrittenBelow_succ (s : State) (n : Nat) :
    unwrittenBelow s (n + 1) = unwrittenBelow s n + if (s.inBuf.lookup n).isNone then 1 else 0 := by
  simp only [unwrittenBelow, List.range_succ, List.filter_append, List.length_append, List.filter_cons, List.filter_nil]
  split <;> simp

/-- A read gives the written byte and changes nothing, or a draw and advances the draw counter. -/
theorem readByte_cases (sp : Space) (i : Nat) (s : State) :
    (∃ v, (s.buffer sp).lookup i = some v ∧ readByte sp i s = (v, s)) ∨
      ((s.buffer sp).lookup i = none ∧ readByte sp i s = (Config.freeByte s.draws, { s with draws := s.draws + 1 })) := by
  unfold readByte
  cases h : (s.buffer sp).lookup i with
  | some v => exact .inl ⟨v, rfl, rfl⟩
  | none => exact .inr ⟨rfl, rfl⟩

theorem readByte_of_written {sp : Space} {i : Nat} {s : State} {v : Byte} (h : (s.buffer sp).lookup i = some v) :
    readByte sp i s = (v, s) := by
  simp [readByte, h]

theorem readByte_of_unwritten {sp : Space} {i : Nat} {s : State} (h : (s.buffer sp).lookup i = none) :
    readByte sp i s = (Config.freeByte s.draws, { s with draws := s.draws + 1 }) := by
  simp [readByte, h, Memory.unwritten]

/-- OUT after the lanes 0..n−1 of a pass. -/
def passOut (f : Byte → Byte) (s : State) : Nat → Memory
  | 0 => s.outBuf
  | n + 1 => (passOut f s n).store n (f (laneByte s n))

/-- A pass writes OUT and the draw counter, and nothing else (42_buffer_passes.md R120, R121). -/
theorem passLanes_eq (f : Byte → Byte) (n : Nat) (s : State) :
    passLanes f n s = { s with outBuf := passOut f s n, draws := s.draws + unwrittenBelow s n } := by
  induction n with
  | zero => rfl
  | succ n ih =>
    simp only [passLanes, ih, passLane, passOut, laneByte, unwrittenBelow_succ]
    cases h : s.inBuf.lookup n with
    | some v => rw [readByte_of_written (v := v) (by simpa using h)]; simp [writeByte]
    | none => rw [readByte_of_unwritten (by simpa using h)]; simp [writeByte, Nat.add_assoc]

/-- OUT[i] after a pass, for every index (42_buffer_passes.md R120, R121). -/
theorem lookup_passOut (f : Byte → Byte) (s : State) (n i : Nat) :
    (passOut f s n).lookup i = if i < n then some (f (laneByte s i)) else s.outBuf.lookup i := by
  induction n with
  | zero => simp [passOut]
  | succ n ih =>
    simp only [passOut, lookup_store, ih]
    by_cases h : i = n
    · subst h; simp
    · have : i < n + 1 ↔ i < n := by omega
      simp [h, this]

/-- A pass of at most BUF_BYTES lanes keeps OUT sound. -/
theorem passOut_sound {f : Byte → Byte} {s : State} {n k : Nat} (hn : n ≤ k) (h : s.outBuf.sound k) :
    (passOut f s n).sound k := by
  induction n with
  | zero => exact h
  | succ n ih => exact store_sound n _ (by omega) (ih (by omega))

end Sys2Proof.Machine
end

