-- ==== Sys2Proof/Laws/Commands.lean ====
section
/-! SUPPORT. Everything one command can do, said once: each invariant and frame over all commands follows from these cases. -/

namespace Sys2Proof.Machine

/-- The response latch does not take part in what a command does: it is only written (10_state.md R29). -/
theorem raiseErr_eq (e : ErrCode) (s : State) : raiseErr e s = .next (latch e 0#32 s) := rfl

theorem respond_eq (d : Word) (s : State) : respond d s = .next (latch .ok d s) := rfl

@[simp] theorem latch_latch (e f : ErrCode) (c d : Word) (s : State) : latch e c (latch f d s) = latch e c s := rfl

theorem keyUsable_iff (s : State) : keyUsable s = true ↔ s.aInv ≠ 0xFFFFFFFF#32 := by
  simp [keyUsable, Config.sentinel]

theorem keyUsable_eq_false_iff (s : State) : keyUsable s = false ↔ s.aInv = 0xFFFFFFFF#32 := by
  simp [keyUsable, Config.sentinel]

theorem acceptWord_of_ok {w : CommandWord} {i : Instr} (h : decode w = .ok i) (s : State) : acceptWord w s = exec i s := by
  simp [acceptWord, h]

theorem acceptWord_of_error {w : CommandWord} {e : DecodeError} (h : decode w = .error e) (s : State) :
    acceptWord w s = .next (latch .illegal 0#32 s) := by
  simp [acceptWord, h, raiseErr_eq]

/-- RDIN and RDOUT: an error that leaves the state alone, or a response and at most one draw. -/
theorem readBuffer_cases (sp : Space) (index : BitVec 16) (s : State) :
    (s.bufBytes ≤ index.toNat ∧ readBuffer sp index s = .next (latch .range 0#32 s)) ∨
      (index.toNat < s.bufBytes ∧ ∃ v, (s.buffer sp).lookup index.toNat = some v ∧
        readBuffer sp index s = .next (latch .ok (v.setWidth 32) s)) ∨
      (index.toNat < s.bufBytes ∧ (s.buffer sp).lookup index.toNat = none ∧
        readBuffer sp index s =
          .next (latch .ok ((Config.freeByte s.draws).setWidth 32) { s with draws := s.draws + 1 })) := by
  by_cases h : index.toNat < s.bufBytes
  · refine .inr ?_
    rcases readByte_cases sp index.toNat s with ⟨v, h1, h2⟩ | ⟨h1, h2⟩
    · exact .inl ⟨h, v, h1, by simp [readBuffer, indexInBuffer, h, h2, respond_eq, byteResult]⟩
    · exact .inr ⟨h, h1, by simp [readBuffer, indexInBuffer, h, h2, respond_eq, byteResult]⟩
  · exact .inl ⟨by omega, by simp [readBuffer, indexInBuffer, h, raiseErr_eq]⟩

/-- What a command does: it answers a next state, which is one of these. -/
def CommandEffect (i : Instr) (s t : State) : Prop :=
  (∃ e, (e = .keyParity ∨ e = .keyUnusable ∨ e = .range) ∧ t = latch e 0#32 s) ∨
  (∃ v, i = .seta v ∧ v.getLsbD 0 = true ∧ t = latch .ok 0#32 { s with a := v, aInv := scan v }) ∨
  (∃ v, i = .setb v ∧ t = latch .ok 0#32 { s with b := byteOfInt (valueInt v) }) ∨
  (∃ n f, (i = .enc n ∨ i = .dec n) ∧ n.toNat ≤ s.bufBytes ∧
    t = latch .ok (lenResult n)
      { s with outBuf := passOut f s n.toNat, draws := s.draws + unwrittenBelow s n.toNat }) ∨
  (∃ j d, i = .wrin j d ∧ j.toNat < s.bufBytes ∧ t = latch .ok 0#32 { s with inBuf := s.inBuf.store j.toNat d }) ∨
  (∃ d k, t = latch .ok d { s with draws := s.draws + k })

theorem readBuffer_effect (i : Instr) (sp : Space) (index : BitVec 16) (s : State) :
    ∃ t, readBuffer sp index s = .next t ∧ CommandEffect i s t := by
  rcases readBuffer_cases sp index s with ⟨_, h⟩ | ⟨_, v, _, h⟩ | ⟨_, _, h⟩
  · exact ⟨_, h, .inl ⟨_, .inr (.inr rfl), rfl⟩⟩
  · exact ⟨_, h, .inr (.inr (.inr (.inr (.inr ⟨_, 0, rfl⟩))))⟩
  · exact ⟨_, h, .inr (.inr (.inr (.inr (.inr ⟨_, 1, rfl⟩))))⟩

/-- A response that leaves the state alone. -/
theorem respond_effect (i : Instr) (d : Word) (s : State) : ∃ t, respond d s = .next t ∧ CommandEffect i s t :=
  ⟨_, rfl, .inr (.inr (.inr (.inr (.inr ⟨d, 0, rfl⟩))))⟩

/-- Every command answers a next state, and this is all it can do. -/
theorem exec_effect (i : Instr) (s : State) : ∃ t, exec i s = .next t ∧ CommandEffect i s t := by
  cases i with
  | seta v =>
    rcases Bool.eq_false_or_eq_true (v.getLsbD 0) with h | h
    · exact ⟨_, by simp only [exec, execSeta, valueEven, h]; rfl, .inr (.inl ⟨v, rfl, h, rfl⟩)⟩
    · exact ⟨_, by simp only [exec, execSeta, valueEven, h]; rfl, .inl ⟨_, .inl rfl, rfl⟩⟩
  | setb v => exact ⟨_, rfl, .inr (.inr (.inl ⟨v, rfl, rfl⟩))⟩
  | encb p =>
    simp only [exec, execEncb]
    cases keyUsable s with
    | false => exact ⟨_, rfl, .inl ⟨_, .inr (.inl rfl), rfl⟩⟩
    | true => exact respond_effect _ _ _
  | decb q => exact respond_effect _ _ _
  | enc n =>
    simp only [exec, execEnc, lenInBuffer]
    by_cases h : n.toNat ≤ s.bufBytes
    · cases keyUsable s with
      | false => simpa [h] using ⟨_, rfl, .inl ⟨_, .inr (.inl rfl), rfl⟩⟩
      | true => simpa [h, passLanes_eq] using ⟨_, rfl, .inr (.inr (.inr (.inl ⟨n, _, .inl rfl, h, rfl⟩)))⟩
    · simpa [h] using ⟨_, rfl, .inl ⟨_, .inr (.inr rfl), rfl⟩⟩
  | dec n =>
    simp only [exec, execDec, lenInBuffer]
    by_cases h : n.toNat ≤ s.bufBytes
    · simpa [h, passLanes_eq] using ⟨_, rfl, .inr (.inr (.inr (.inl ⟨n, _, .inr rfl, h, rfl⟩)))⟩
    · simpa [h] using ⟨_, rfl, .inl ⟨_, .inr (.inr rfl), rfl⟩⟩
  | wrin j d =>
    simp only [exec, execWrin, indexInBuffer]
    by_cases h : j.toNat < s.bufBytes
    · simpa [h] using ⟨_, rfl, .inr (.inr (.inr (.inr (.inl ⟨j, d, rfl, h, rfl⟩))))⟩
    · simpa [h] using ⟨_, rfl, .inl ⟨_, .inr (.inr rfl), rfl⟩⟩
  | rdin j => exact readBuffer_effect _ _ _ _
  | rdout j => exact readBuffer_effect _ _ _ _
  | rda => exact respond_effect _ _ _
  | rdb => exact respond_effect _ _ _
  | rdinv => exact respond_effect _ _ _
  | rdstat => exact respond_effect _ _ _

/-- Every word is accepted: an illegal one latches ERR_ILLEGAL, any other has its command's effect. -/
theorem acceptWord_effect (w : CommandWord) (s : State) :
    ∃ t, acceptWord w s = .next t ∧
      (((∃ e, decode w = .error e) ∧ t = latch .illegal 0#32 s) ∨ ∃ i, decode w = .ok i ∧ CommandEffect i s t) := by
  unfold acceptWord
  cases h : decode w with
  | error e => exact ⟨_, rfl, .inl ⟨⟨e, rfl⟩, rfl⟩⟩
  | ok i =>
    obtain ⟨t, h1, h2⟩ := exec_effect i s
    exact ⟨t, h1, .inr ⟨i, rfl, h2⟩⟩

/-- The state with other values in the response latch. -/
def withLatch (v : Bool) (e : ErrBits) (d : Word) (s : State) : State := { s with rspValid := v, rspErr := e, rspData := d }

theorem passOut_withLatch (f : Byte → Byte) (v : Bool) (e : ErrBits) (d : Word) (s : State) (n : Nat) :
    passOut f (withLatch v e d s) n = passOut f s n := by
  have hb : ∀ k, laneByte (withLatch v e d s) k = laneByte s k := fun _ => rfl
  induction n with
  | zero => rfl
  | succ n ih => simp only [passOut, ih, hb]

theorem passLanes_withLatch (f : Byte → Byte) (v : Bool) (e : ErrBits) (d : Word) (s : State) (n : Nat) :
    passLanes f n (withLatch v e d s) = withLatch v e d (passLanes f n s) := by
  simp only [passLanes_eq, passOut_withLatch]
  rfl

theorem readBuffer_withLatch (sp : Space) (j : BitVec 16) (v : Bool) (e : ErrBits) (d : Word) (s : State) :
    readBuffer sp j (withLatch v e d s) = readBuffer sp j s := by
  have hl : ((withLatch v e d s).buffer sp).lookup j.toNat = (s.buffer sp).lookup j.toNat := by cases sp <;> rfl
  simp only [readBuffer, readByte, hl]
  cases (s.buffer sp).lookup j.toNat <;> rfl

/-- A command writes the whole latch and reads none of it, so the response before it leaves no trace
(10_state.md R29; 60_exceptions.md R160, R171). -/
theorem exec_withLatch (i : Instr) (v : Bool) (e : ErrBits) (d : Word) (s : State) :
    exec i (withLatch v e d s) = exec i s := by
  cases i with
  | enc n => simp only [exec, execEnc, show (withLatch v e d s).a = s.a from rfl, show (withLatch v e d s).b = s.b from rfl,
      passLanes_withLatch]; rfl
  | dec n => simp only [exec, execDec, show (withLatch v e d s).aInv = s.aInv from rfl,
      show (withLatch v e d s).b = s.b from rfl, passLanes_withLatch]; rfl
  | rdin j => exact readBuffer_withLatch _ _ _ _ _ _
  | rdout j => exact readBuffer_withLatch _ _ _ _ _ _
  | seta v => rfl
  | setb v => rfl
  | encb p => rfl
  | decb q => rfl
  | wrin j v => rfl
  | rda => rfl
  | rdb => rfl
  | rdinv => rfl
  | rdstat => rfl

theorem acceptWord_withLatch (w : CommandWord) (v : Bool) (e : ErrBits) (d : Word) (s : State) :
    acceptWord w (withLatch v e d s) = acceptWord w s := by
  unfold acceptWord
  cases decode w with
  | ok i => exact exec_withLatch i v e d s
  | error x => rfl

end Sys2Proof.Machine
end

