-- ==== Sys2Proof/Laws/PerInstr.lean ====
section
/-! SUPPORT. The family Listing: every command is well formed, and its listing assembles to its own word (spec
30_encoding.md R65, R69). -/

namespace Sys2Proof.Laws.Listing

open Sys2Proof.Machine

/-- The listing of a command passes the assembler's range check and assembles to the command's word. -/
def Statement (i : Instr) : Prop := i.wellFormed = true ∧ assembleLine i.listing = some [encode i]

theorem value_in_range (v : BitVec 32) : (Number.dec v.toInt).isValue = true := by
  have h1 := BitVec.le_toInt v
  have h2 := BitVec.toInt_lt (x := v)
  simp only [Number.isValue, decide_eq_true_eq]
  omega

theorem byte_in_range (p : BitVec 8) : (Number.dec p.toNat).isByte = true := by
  have := p.isLt
  simp only [Number.isByte, decide_eq_true_eq]
  omega

theorem half_in_range (n : BitVec 16) : (Number.dec n.toNat).isHalf = true := by
  have := n.isLt
  simp only [Number.isHalf, decide_eq_true_eq]
  omega

theorem asmValue_dec (v : BitVec 32) : asmValue (.dec v.toInt) = v := by
  simp [asmValue, Number.value]

theorem asmByte_dec (p : BitVec 8) : asmByte (.dec p.toNat) = p := by
  simp [asmByte, Number.value]

theorem asmHalf_dec (n : BitVec 16) : asmHalf (.dec n.toNat) = n := by
  simp [asmHalf, Number.value]

/-- The listing of a well-formed command assembles when its words are the command's word. -/
theorem of_parts {i : Instr} (h : i.wellFormed = true) (hw : lineWords i.listing = [encode i]) : Statement i :=
  ⟨h, by unfold assembleLine; rw [show i.listing.wellFormed = true from h, if_pos rfl, hw]⟩

theorem seta (v : BitVec 32) : Statement (.seta v) := of_parts (value_in_range v) (by simp [Instr.listing, lineWords, asmValue_dec])
theorem setb (v : BitVec 32) : Statement (.setb v) := of_parts (value_in_range v) (by simp [Instr.listing, lineWords, asmValue_dec])
theorem encb (p : BitVec 8) : Statement (.encb p) := of_parts (byte_in_range p) (by simp [Instr.listing, lineWords, asmByte_dec])
theorem decb (q : BitVec 8) : Statement (.decb q) := of_parts (byte_in_range q) (by simp [Instr.listing, lineWords, asmByte_dec])
theorem enc (n : BitVec 16) : Statement (.enc n) := of_parts (half_in_range n) (by simp [Instr.listing, lineWords, asmHalf_dec])
theorem dec (n : BitVec 16) : Statement (.dec n) := of_parts (half_in_range n) (by simp [Instr.listing, lineWords, asmHalf_dec])
theorem wrin (i : BitVec 16) (d : BitVec 8) : Statement (.wrin i d) :=
  of_parts (by simp [Instr.wellFormed, Instr.listing, AsmLine.wellFormed, half_in_range, byte_in_range])
    (by simp [Instr.listing, lineWords, asmHalf_dec, asmByte_dec])
theorem rdin (i : BitVec 16) : Statement (.rdin i) := of_parts (half_in_range i) (by simp [Instr.listing, lineWords, asmHalf_dec])
theorem rdout (i : BitVec 16) : Statement (.rdout i) := of_parts (half_in_range i) (by simp [Instr.listing, lineWords, asmHalf_dec])
theorem rda : Statement .rda := of_parts rfl rfl
theorem rdb : Statement .rdb := of_parts rfl rfl
theorem rdinv : Statement .rdinv := of_parts rfl rfl
theorem rdstat : Statement .rdstat := of_parts rfl rfl

end Sys2Proof.Laws.Listing
end

