-- ==== Sys2Proof/Tests/Slice0.lean ====
section
/-! SUPPORT. Tests: well-formedness, decoding of words written out from the spec's bit strings, one step per command, the ports,
the assembler, and a witness for every statement that has hypotheses. -/

namespace Sys2Proof.Tests

open Sys2Proof.Machine

/-! An ill-formed term for each check of WellFormed (30_encoding.md R69). -/

theorem test_wf_value_decimal_low : (AsmLine.seta (.dec (-2147483649))).wellFormed = false := by decide
theorem test_wf_value_decimal_high : (AsmLine.setb (.dec 2147483648)).wellFormed = false := by decide
theorem test_wf_value_hex : (AsmLine.seta (.hex 0x100000000)).wellFormed = false := by decide
theorem test_wf_value_char : (AsmLine.seta (.chr 65)).wellFormed = false := by decide
theorem test_wf_byte_negative : (AsmLine.encb (.dec (-1))).wellFormed = false := by decide
theorem test_wf_byte_high : (AsmLine.decb (.hex 256)).wellFormed = false := by decide
theorem test_wf_byte_char : (AsmLine.encb (.chr 128)).wellFormed = false := by decide
theorem test_wf_len_high : (AsmLine.enc (.dec 65536)).wellFormed = false := by decide
theorem test_wf_len_char : (AsmLine.dec (.chr 65)).wellFormed = false := by decide
theorem test_wf_index_high : (AsmLine.wrin (.hex 65536) (.dec 0)).wellFormed = false := by decide
theorem test_wf_index_read : (AsmLine.rdin (.dec (-1))).wellFormed = false ∧ (AsmLine.rdout (.dec 65536)).wellFormed = false := by
  decide
theorem test_wf_word : (AsmLine.word 0x10000000000).wellFormed = false := by decide
theorem test_wf_setkey : (AsmLine.setkey (.dec 51) (.chr 1)).wellFormed = false := by decide
theorem test_wf_wrstr : (AsmLine.wrstr (.dec 65535) [1#8, 2#8]).wellFormed = false := by decide
theorem test_wf_rdbuf : (AsmLine.rdbuf (.dec 65535) (.dec 2)).wellFormed = false ∧ (AsmLine.rdbuf (.dec 0) (.dec (-1))).wellFormed = false := by
  decide
theorem test_wf_instr : (Instr.seta 0x80000000#32).wellFormed = true ∧ (Instr.wrin 65535#16 255#8).wellFormed = true := by decide

/-! Every constructor's word, written bit by bit from the formats of 30_encoding.md R64. -/

theorem test_decode_seta : decode 0b00000001_11111111_11111111_11111111_11111101#40 = .ok (.seta (-3)) := by decide
theorem test_decode_setb : decode 0b00000010_00000000_00000000_00000001_00101100#40 = .ok (.setb 300#32) := by decide
theorem test_decode_encb : decode 0b00000011_00000000_00000000_00000000_01000001#40 = .ok (.encb 65#8) := by decide
theorem test_decode_decb : decode 0b00000100_00000000_00000000_00000000_11001001#40 = .ok (.decb 201#8) := by decide
theorem test_decode_enc : decode 0b00000101_00000000_00000000_00000001_00101100#40 = .ok (.enc 300#16) := by decide
theorem test_decode_dec : decode 0b00000110_00000000_00000000_10000000_00000010#40 = .ok (.dec 0x8002#16) := by decide
theorem test_decode_wrin : decode 0b00000111_00000000_00000001_00000010_01000010#40 = .ok (.wrin 0x0102#16 0x42#8) := by decide
theorem test_decode_rdin : decode 0b00001000_00000000_10000000_00000001_00000000#40 = .ok (.rdin 0x8001#16) := by decide
theorem test_decode_rdout : decode 0b00001001_00000000_00000001_00000000_00000000#40 = .ok (.rdout 256#16) := by decide
theorem test_decode_rda : decode 0b00001010_00000000_00000000_00000000_00000000#40 = .ok .rda := by decide
theorem test_decode_rdb : decode 0b00001011_00000000_00000000_00000000_00000000#40 = .ok .rdb := by decide
theorem test_decode_rdinv : decode 0b00001100_00000000_00000000_00000000_00000000#40 = .ok .rdinv := by decide
theorem test_decode_rdstat : decode 0b00001101_00000000_00000000_00000000_00000000#40 = .ok .rdstat := by decide

/-- The illegal words of 95_test_vectors.md T11, refused by name. -/
theorem test_decode_illegal :
    decode 0x0000000000#40 = .error (.unassignedOpcode 0x00#8) ∧
    decode 0x0E00000000#40 = .error (.unassignedOpcode 0x0E#8) ∧
    decode 0xFFFFFFFFFF#40 = .error (.unassignedOpcode 0xFF#8) ∧
    decode 0x0300000100#40 = .error (.reservedFieldNonzero 0x03#8) ∧
    decode 0x0480000000#40 = .error (.reservedFieldNonzero 0x04#8) ∧
    decode 0x0500010000#40 = .error (.reservedFieldNonzero 0x05#8) ∧
    decode 0x0701000000#40 = .error (.reservedFieldNonzero 0x07#8) ∧
    decode 0x0800000001#40 = .error (.reservedFieldNonzero 0x08#8) ∧
    decode 0x0901000000#40 = .error (.reservedFieldNonzero 0x09#8) ∧
    decode 0x0A00000001#40 = .error (.reservedFieldNonzero 0x0A#8) ∧
    decode 0x0D80000000#40 = .error (.reservedFieldNonzero 0x0D#8) := by
  decide

/-! One step per command. `after w s` is the state after the host presents `w` in `s`. -/

/-- The state after one step that presents a word; the state itself if the step stops. -/
def after (w : Nat) (s : State) : State :=
  match step (s.withFetchWord 40 w) with
  | .next t => t
  | .fault _ => s
  | .refused _ => s

/-- The latched response, as (valid, err, data). -/
def shown (s : State) : Bool × ErrBits × Word := (s.rspValid, s.rspErr, s.rspData)

/-- The outcome is a next state that passes a check. -/
def nextWith {σ : Type} (P : σ → Bool) (o : Host.Outcome σ Fault Refusal) : Bool :=
  match o with
  | .next t => P t
  | .fault _ => false
  | .refused _ => false

theorem exists_of_nextWith {σ : Type} {P : σ → Bool} {o : Host.Outcome σ Fault Refusal} (h : nextWith P o = true) :
    ∃ t, o = .next t ∧ P t = true := by
  cases o with
  | next t => exact ⟨t, rfl, h⟩
  | fault r => cases h
  | refused r => cases h

theorem eq_of_nextWith {σ : Type} [DecidableEq σ] {u : σ} {o : Host.Outcome σ Fault Refusal}
    (h : nextWith (fun t => decide (t = u)) o = true) : o = .next u := by
  obtain ⟨t, rfl, ht⟩ := exists_of_nextWith h
  rw [of_decide_eq_true ht]

/-- 95_test_vectors.md T2, row SETA −3. -/
theorem test_seta_negative :
    ((after 0x01FFFFFFFD State.reset).a, (after 0x01FFFFFFFD State.reset).aInv) = (0xFFFFFFFD#32, 85#32) := by decide

/-- 95_test_vectors.md T2, row SETA 256: parity error, A and A_INV kept. -/
theorem test_seta_even :
    (shown (after 0x0100000100 State.reset), (after 0x0100000100 State.reset).a, (after 0x0100000100 State.reset).aInv) =
      ((true, 2#4, 0#32), 51#32, 251#32) := by decide

/-- 95_test_vectors.md T3, row SETB −10. -/
theorem test_setb_negative : (after 0x02FFFFFFF6 State.reset).b = 246#8 := by decide

/-- 95_test_vectors.md T4, row ENCB 255. -/
theorem test_encb_wraps : shown (after 0x03000000FF State.reset) = (true, 0#4, 0x96#32) := by decide

/-- 95_test_vectors.md T4, row (−1, 201, −1) ENCB 7. -/
theorem test_encb_unusable : shown (after 0x0300000007 (after 0x01FFFFFFFF State.reset)) = (true, 3#4, 0#32) := by decide +kernel

/-- 95_test_vectors.md T4, row DECB 188: q < B. -/
theorem test_decb_negative_difference : shown (after 0x04000000BC State.reset) = (true, 0#4, 0x41#32) := by decide

/-- 95_test_vectors.md T4, row (−1, 201, −1) DECB 255: no key check. -/
theorem test_decb_sentinel : shown (after 0x04000000FF (after 0x01FFFFFFFF State.reset)) = (true, 0#4, 0xCA#32) := by decide +kernel

/-- IN = "AB" written from reset (95_test_vectors.md P3). -/
def withAB : State := after 0x0700000142 (after 0x0700000041 State.reset)

/-- 95_test_vectors.md P3, commands 0 to 4. -/
theorem test_enc_AB :
    (shown (after 0x0500000002 withAB), (after 0x0500000002 withAB).outBuf) =
      ((true, 0#4, 2#32), [(0, 188#8), (1, 239#8)]) := by decide

/-- 95_test_vectors.md T12: with an unusable key ENC 300 is ERR_RANGE and ENC 0 is ERR_KEY_UNUSABLE. -/
theorem test_enc_priority :
    (shown (after 0x050000012C (after 0x01000000FF State.reset)), shown (after 0x0500000000 (after 0x01000000FF State.reset))) =
      ((true, 5#4, 0#32), (true, 3#4, 0#32)) := by decide +kernel

/-- 95_test_vectors.md T9: DEC with the sentinel. -/
theorem test_dec_sentinel : (after 0x0600000001 (after 0x01000000FF withAB)).outBuf = [(0, 0x88#8)] := by decide +kernel

/-- 95_test_vectors.md T8, with BUF_BYTES = 4: DEC 5. -/
theorem test_dec_range : shown (after 0x0600000005 { State.reset with bufBytes := 4 }) = (true, 5#4, 0#32) := by decide

/-- 95_test_vectors.md P3, commands 0 and 1: IN after the two writes. -/
theorem test_wrin : withAB.inBuf = [(0, 0x41#8), (1, 0x42#8)] := by decide

/-- 95_test_vectors.md P4, command 4: WRIN 256 with BUF_BYTES = 256. -/
theorem test_wrin_range : shown (after 0x0700010001 State.reset) = (true, 5#4, 0#32) := by decide

/-- 43_access.md R141, worked example RDIN 1. -/
theorem test_rdin : shown (after 0x0800000100 withAB) = (true, 0#4, 0x42#32) := by decide

/-- 43_access.md R142, worked example RDOUT 0 after ENC 2. -/
theorem test_rdout : shown (after 0x0900000000 (after 0x0500000002 withAB)) = (true, 0#4, 0xBC#32) := by decide

/-- 95_test_vectors.md P4, command 5: RDOUT 256 is out of range. -/
theorem test_rdout_range : shown (after 0x0900010000 State.reset) = (true, 5#4, 0#32) := by decide

/-- 20_memory.md R52: an unwritten byte is a draw, and two reads are two draws. -/
theorem test_rdin_unwritten :
    step (State.reset.withFetchWord 40 0x0800000000) =
      .next { State.reset with rspValid := true, rspErr := 0#4, rspData := byteResult (Config.freeByte 0), draws := 1 } := by rfl

/-- 95_test_vectors.md T10: RDA after SETA 511. -/
theorem test_rda : shown (after 0x0A00000000 (after 0x01000001FF State.reset)) = (true, 0#4, 0x1FF#32) := by decide +kernel

/-- 95_test_vectors.md P1, command 9: RDB after SETB −10. -/
theorem test_rdb : shown (after 0x0B00000000 (after 0x02FFFFFFF6 State.reset)) = (true, 0#4, 0xF6#32) := by decide

/-- 95_test_vectors.md T10: RDINV after SETA 511. -/
theorem test_rdinv : shown (after 0x0C00000000 (after 0x01000001FF State.reset)) = (true, 0#4, 0xFFFFFFFF#32) := by decide +kernel

/-- 95_test_vectors.md P2: RDSTAT after SETA 255, and from reset. -/
theorem test_rdstat :
    (shown (after 0x0D00000000 (after 0x01000000FF State.reset)), shown (after 0x0D00000000 State.reset)) =
      ((true, 0#4, 0#32), (true, 0#4, 1#32)) := by decide +kernel

/-- 95_test_vectors.md T11, command 3: a non-zero reserved field. -/
theorem test_illegal_step : step (State.reset.withFetchWord 40 0x0300000100) =
    .next { State.reset with rspValid := true, rspErr := 4#4, rspData := 0#32 } := eq_of_nextWith (by decide)

/-- 70_reset_and_hazards.md R182: a SETB cut off by a reset leaves B = 201 and no response. -/
theorem test_abandoned : step { State.reset with b := 7#8, rspValid := true, inputs := [.abandoned 0x0200000001#40] } =
    .next State.reset := eq_of_nextWith (by decide)

/-- 70_reset_and_hazards.md R190: the first two responses of 95_test_vectors.md P1. -/
theorem test_run : runCommands [0x0C00000000#40, 0x0300000000#40] State.reset =
    .next ([{ err := .ok, data := 0xFB#32 }, { err := .ok, data := 0xC9#32 }],
      { State.reset with rspValid := true, rspErr := 0#4, rspData := 0xC9#32 }) := eq_of_nextWith (by decide)

/-! The assembler, on lines of 95_test_vectors.md and the forms of 30_encoding.md R69, R70. -/

theorem test_asm_setb : assembleListing ["SETB -10 ; b".toList] = some [0x02FFFFFFF6#40] := by decide
theorem test_asm_hex : assembleListing ["SETA 0xFFFFFFFF".toList] = some [0x01FFFFFFFF#40] := by decide
theorem test_asm_wrin : assembleListing ["WRIN 1, 'B'".toList] = some [0x0700000142#40] := by decide
theorem test_asm_semicolon : assembleListing ["ENCB ';'".toList] = some [0x030000003B#40] := by decide
theorem test_asm_none : assembleListing ["RDSTAT".toList, "".toList, "RDA".toList] = some [0x0D00000000#40, 0x0A00000000#40] := by decide
theorem test_asm_word : assembleListing [".word 05_0100_012C".toList] = some [0x050100012C#40] := by decide
theorem test_asm_setkey : assembleListing ["SETKEY 51, 201".toList] = some [0x0100000033#40, 0x02000000C9#40] := by decide
theorem test_asm_wrstr : assembleListing ["WRSTR 2, \"A\\x0A\"".toList] = some [0x0700000241#40, 0x070000030A#40] := by decide
theorem test_asm_rdbuf : assembleListing ["RDBUF 0, 2".toList] = some [0x0900000000#40, 0x0900000100#40] := by decide
theorem test_asm_refused : [["SETA 2147483648"], ["ENC 'A'"], ["WRIN 1 2"], ["RDA 0"], [".word 05"], ["NOP"]].map
    (fun ls => assembleListing (ls.map String.toList)) = [none, none, none, none, none, none] := by decide

/-- log 11: white space must stand before the first operand, and may be absent around a comma and before a comment. -/
theorem test_asm_white_space : assembleListing ["ENCB'A'".toList] = none ∧ assembleListing ["SETA-3".toList] = none ∧
    assembleListing ["WRIN 1,'B';c".toList] = some [0x0700000142#40] := by decide

/-- log 11: a backslash-x without two hexadecimal digits is refused, also at the end of the line; any other backslash stands
for itself. -/
theorem test_asm_escape : ["\"\\x\"", "\"\\x4\"", "\"\\x4\" ; c", "\"\\xG0\""].map
    (fun t => assembleListing [("WRSTR 0, " ++ t).toList]) = [none, none, none, none] ∧
    assembleListing ["WRSTR 0, \"\\\"".toList] = some [0x070000005C#40] := by decide

/-! The ports. -/

/-- A block that has just come ready after reset. -/
def readyBlock : Block := { core := State.reset, phase := .ready, edges := 0 }

/-- The pins that present a word. -/
def present (w : CommandWord) : Pins := { rstN := true, cmdValid := true, cmdWord := w }

/-- The pins of a waiting host. -/
def idlePins : Pins := { rstN := true, cmdValid := false, cmdWord := 0#40 }

/-- The pins of a reset. -/
def resetPins : Pins := { rstN := false, cmdValid := false, cmdWord := 0#40 }

/-- 30_encoding.md R61: at the completion edge the response appears and cmd_ready returns. -/
theorem test_port_completion : clockEdge idlePins { readyBlock with phase := .busy 0x0300000000#40 0 } =
    .next { core := { State.reset with rspValid := true, rspErr := 0#4, rspData := 201#32 }, phase := .ready, edges := 1 } :=
  eq_of_nextWith (by decide)

/-- 30_encoding.md R61: a command presented while one is in flight is not accepted. -/
theorem test_port_busy : clockEdge (present 0x0D00000000#40) { readyBlock with phase := .busy 0x0300000000#40 2 } =
    .next { readyBlock with phase := .busy 0x0300000000#40 1, edges := 1 } := eq_of_nextWith (by decide)

/-! Witnesses: for every statement with hypotheses, a state and operands that meet them. -/

open Sys2Proof.Claims

/-- A sound state with BUF_BYTES = 4 and IN[0], IN[3] written. -/
def small : State := { State.reset with bufBytes := 4, inBuf := [(0, 65#8), (3, 9#8)] }

/-- A sound state whose key is unusable. -/
def unusable : State := { small with a := 255#32, aInv := 0xFFFFFFFF#32 }

theorem small_sound : small.Sound :=
  ⟨by decide +kernel, by decide, ⟨by decide, by decide⟩, ⟨by decide, by decide⟩, by decide, fun h => absurd h (by decide)⟩

theorem unusable_sound : unusable.Sound :=
  ⟨by decide +kernel, by decide, ⟨by decide, by decide⟩, ⟨by decide, by decide⟩, by decide, fun h => absurd h (by decide)⟩

theorem witness_EncodeInvertsDecode : decode 0x07FFFFFFFF#40 ≠ .ok .rda ∧ decode 0x0700FFFFFF#40 = .ok (.wrin 0xFFFF#16 0xFF#8) := by
  decide

theorem witness_OperandsAreTheWordsFields :
    decode 0x01FFFFFFFF#40 = .ok (.seta 0xFFFFFFFF#32) ∧ decode 0x0280000000#40 = .ok (.setb 0x80000000#32) ∧
    decode 0x03000000FF#40 = .ok (.encb 0xFF#8) ∧ decode 0x0400000080#40 = .ok (.decb 0x80#8) ∧
    decode 0x050000FFFF#40 = .ok (.enc 0xFFFF#16) ∧ decode 0x0600008000#40 = .ok (.dec 0x8000#16) ∧
    decode 0x0700FFFF01#40 = .ok (.wrin 0xFFFF#16 1#8) ∧ decode 0x0800FFFF00#40 = .ok (.rdin 0xFFFF#16) ∧
    decode 0x0900800100#40 = .ok (.rdout 0x8001#16) := by decide

/-- Each clause of `illegalWord` at its boundary values. -/
theorem witness_IllegalWordsOnlyReportTheError :
    [0x0000000000#40, 0x0E00000000#40, 0xFF00000000#40, 0x0300000100#40, 0x0480000000#40, 0x0500010000#40, 0x0680000000#40,
        0x0701000000#40, 0x0880000000#40, 0x0800000001#40, 0x0900000080#40, 0x0A00000001#40, 0x0B80000000#40, 0x0C00000100#40,
        0x0D00010000#40].all (fun w => decide (illegalWord w)) = true := by decide

theorem witness_StepRunsTheDecodedCommand :
    (State.reset.withFetchWord 40 0x0A00000000).inputs = .command 0x0A00000000#40 :: [] ∧ decode 0x0A00000000#40 = .ok .rda ∧
    decodeTableWord 40 0x0A00000000 = some .rda := by decide

theorem witness_BlockWaitsBetweenCommands :
    State.reset.inputs = [] ∧ readyBlock.phase = .ready ∧ idlePins.rstN = true ∧ idlePins.cmdValid = false ∧
    (∀ w, ({ readyBlock with phase := .waking 0 } : Block).phase ≠ .busy w 0) ∧
    clockEdge (present 0#40) { readyBlock with phase := .waking 0 } = .next { readyBlock with edges := 1 } := by
  refine ⟨rfl, rfl, rfl, rfl, fun w => by simp, eq_of_nextWith (by decide)⟩

theorem witness_ScanHasItsClosedForm :
    (257#32).extractLsb 7 0 = (1#32).extractLsb 7 0 ∧ (253#32).getLsbD 0 = true ∧ (253#32).extractLsb 7 0 ≠ 0xFF#8 ∧
    (0x7FFFFFFF#32).extractLsb 7 0 = 0xFF#8 ∧ (0#32).getLsbD 0 = false := by decide

theorem witness_SetaStoresTheKeyAndItsInverse : (1#32).getLsbD 0 = true ∧ (0#32).getLsbD 0 = false := by decide

theorem witness_SetaDecidesKeyUsable :
    (255#32).getLsbD 0 = true ∧ (253#32).getLsbD 0 = true ∧ (256#32).getLsbD 0 = false := by decide

theorem witness_SettersAreIndependent :
    exec (.seta 2#32) small = .next { small with rspValid := true, rspErr := 2#4, rspData := 0#32 } ∧
    exec (.setb 300#32) small = .next { small with b := 44#8, rspValid := true, rspErr := 0#4, rspData := 0#32 } :=
  ⟨eq_of_nextWith (by decide), eq_of_nextWith (by decide)⟩

theorem witness_KeyIsUnusableExactlyForLowByteFF :
    small.Sound ∧ keyUsable small = true ∧ unusable.Sound ∧ keyUsable unusable = false :=
  ⟨small_sound, by decide, unusable_sound, by decide⟩

theorem witness_DecryptionInvertsEncryption : (0xFFFFFFFF#32).getLsbD 0 = true := by decide

theorem witness_EncbEncryptsOneByte :
    small.aInv ≠ 0xFFFFFFFF#32 ∧ unusable.aInv = 0xFFFFFFFF#32 ∧ opcode 0x0300000100#40 = 0x03#8 ∧
    (0x0300000100#40).extractLsb 31 8 ≠ 0#24 := by decide

theorem witness_DecbDecryptsOneByte : opcode 0x0480000000#40 = 0x04#8 ∧ (0x0480000000#40).extractLsb 31 8 ≠ 0#24 := by decide

theorem witness_ByteRoundTripThroughCommands :
    small.Sound ∧ keyUsable small = true ∧
    [0x0100000002#40, 0x0A00000000#40, 0xFF00000000#40].all (fun w => decide (keepsKeys w)) = true :=
  ⟨small_sound, by decide, by decide⟩

/-- The lengths 4 = BUF_BYTES and 5, with a usable and an unusable key; the lanes 0 and 3 inside and the index 4 outside. -/
theorem witness_EncEncryptsTheLanes :
    small.bufBytes < (5#16).toNat ∧ (4#16).toNat ≤ small.bufBytes ∧ small.aInv ≠ 0xFFFFFFFF#32 ∧
    (0#16).toNat ≤ unusable.bufBytes ∧ unusable.aInv = 0xFFFFFFFF#32 ∧ 3 < (4#16).toNat ∧ (4#16).toNat ≤ 4 ∧
    opcode 0x0500010000#40 = 0x05#8 ∧ (0x0500010000#40).extractLsb 31 16 ≠ 0#16 := by decide

theorem witness_DecDecryptsTheLanes :
    small.bufBytes < (5#16).toNat ∧ (4#16).toNat ≤ small.bufBytes ∧ opcode 0x0680000000#40 = 0x06#8 ∧
    (0x0680000000#40).extractLsb 31 16 ≠ 0#16 := by decide

/-- Two states that hold 65 at the lanes 0 and 1, and their passes. -/
theorem witness_LanesDependOnTheirByteAndTheKeysOnly :
    nextWith (fun t => t.rspErr == 0#4) (exec (.enc 1#16) withAB) = true ∧
    nextWith (fun t => t.rspErr == 0#4) (exec (.enc 2#16) { withAB with inBuf := [(0, 1#8), (1, 65#8)] }) = true ∧
    nextWith (fun t => t.rspErr == 0#4) (exec (.dec 1#16) withAB) = true ∧
    nextWith (fun t => t.rspErr == 0#4) (exec (.dec 2#16) { withAB with inBuf := [(0, 1#8), (1, 65#8)] }) = true ∧
    withAB.inBuf.lookup 0 = some 65#8 ∧ Memory.lookup [(0, 1#8), (1, 65#8)] 1 = some 65#8 := by decide

theorem witness_BufferRoundTrip : small.Sound ∧ keyUsable small = true ∧ (4#16).toNat ≤ small.bufBytes :=
  ⟨small_sound, by decide, by decide⟩

theorem witness_WrinWritesOneByte :
    small.bufBytes ≤ (4#16).toNat ∧ (3#16).toNat < small.bufBytes ∧ opcode 0x0701000000#40 = 0x07#8 ∧
    (0x0701000000#40).extractLsb 31 24 ≠ 0#8 := by decide

theorem witness_RdinReadsOneByteOfIn :
    small.bufBytes ≤ (4#16).toNat ∧ (3#16).toNat < small.bufBytes ∧ small.inBuf.lookup (3#16).toNat = some 9#8 ∧
    small.inBuf.lookup (2#16).toNat = none ∧ opcode 0x0800000001#40 = 0x08#8 ∧ (0x0800000001#40).extractLsb 7 0 ≠ 0#8 := by decide

theorem witness_RdoutReadsOneByteOfOut :
    small.bufBytes ≤ (4#16).toNat ∧ (3#16).toNat < small.bufBytes ∧
    Memory.lookup ({ small with outBuf := [(3, 1#8)] } : State).outBuf (3#16).toNat = some 1#8 ∧
    small.outBuf.lookup (3#16).toNat = none ∧ opcode 0x0980000000#40 = 0x09#8 ∧ (0x0980000000#40).extractLsb 31 24 ≠ 0#8 := by decide

theorem witness_read_back_strict :
    (opcode 0x0A00000001#40 = 0x0A#8 ∧ (0x0A00000001#40).extractLsb 31 0 ≠ 0#32) ∧
    (opcode 0x0B80000000#40 = 0x0B#8 ∧ (0x0B80000000#40).extractLsb 31 0 ≠ 0#32) ∧
    (opcode 0x0C00000100#40 = 0x0C#8 ∧ (0x0C00000100#40).extractLsb 31 0 ≠ 0#32) ∧
    (opcode 0x0D00010000#40 = 0x0D#8 ∧ (0x0D00010000#40).extractLsb 31 0 ≠ 0#32) := by decide

theorem witness_WrittenByteReadsBack : (3#16).toNat < small.bufBytes := by decide

/-- A read that draws nothing: RDIN 3 of a written byte. -/
theorem witness_ReadsHaveNoSideEffect : nextWith (fun t => t.draws == small.draws) (exec (.rdin 3#16) small) = true := by decide

theorem witness_UnwrittenReadsAreSeparateDraws :
    (1#16).toNat < small.bufBytes ∧ small.inBuf.lookup (1#16).toNat = none ∧
    (3#16).toNat < small.bufBytes ∧ small.outBuf.lookup (3#16).toNat = none := by decide

theorem witness_ErrorsLeaveTheStateUnchanged : nextWith (fun t => t.rspErr != 0#4) (acceptWord 0x0500000005#40 small) = true := by
  decide

/-- One word for each response code. -/
theorem witness_ErrorCausesAreExact :
    nextWith (fun t => t.rspErr == 0#4) (acceptWord 0x0A00000000#40 small) = true ∧
    nextWith (fun t => t.rspErr == 2#4) (acceptWord 0x0100000000#40 small) = true ∧
    nextWith (fun t => t.rspErr == 3#4) (acceptWord 0x0500000004#40 unusable) = true ∧
    nextWith (fun t => t.rspErr == 4#4) (acceptWord 0x0E00000000#40 small) = true ∧
    nextWith (fun t => t.rspErr == 5#4) (acceptWord 0x0900000400#40 small) = true := by decide

theorem witness_ErrorPriority :
    unusable.bufBytes < (5#16).toNat ∧ (4#16).toNat ≤ unusable.bufBytes ∧ unusable.aInv = 0xFFFFFFFF#32 := by decide

/-- A step that changes each piece of state. -/
theorem witness_EachStateItemHasItsWriters :
    nextWith (fun t => t.a != small.a) (step (small.withFetchWord 40 0x0100000003)) = true ∧
    nextWith (fun t => t.b != small.b) (step (small.withFetchWord 40 0x0200000003)) = true ∧
    nextWith (fun t => t.inBuf != small.inBuf) (step (small.withFetchWord 40 0x0700000003)) = true ∧
    nextWith (fun t => t.outBuf != small.outBuf) (step (small.withFetchWord 40 0x0600000001)) = true ∧
    nextWith (fun t => keyUsable t != keyUsable unusable) (step { unusable with inputs := [.reset] }) = true := by decide +kernel

theorem witness_RunsAnswerOneResponsePerCommand :
    nextWith (fun r => nextWith (fun _ => true) (runCommands [0x0B00000000#40] r.2)) (runCommands [0x0A00000000#40] small) = true ∧
    nextWith (fun t => (readResponse t).toOption == some (some { err := .ok, data := 201#32 }))
      (acceptWord 0x0B00000000#40 State.reset) = true := by decide

theorem witness_ResetAbandonsTheCommandInFlight :
    ({ small with inputs := [.reset] } : State).inputs = .reset :: [] ∧
    ({ small with inputs := [.abandoned 0x0500000004#40] } : State).inputs = .abandoned 0x0500000004#40 :: [] := by decide

theorem witness_EveryStepKeepsTheStateSound : small.Sound ∧ ∃ t, step small = .next t := ⟨small_sound, _, rfl⟩

/-- Both lengths of the two clauses: none of the edges, and all of them. -/
theorem witness_HandshakeRefinesTheStep :
    readyBlock.phase = .ready ∧ ([] : List Pins).length < latencyAt readyBlock.edges ∧
    (List.replicate (latencyAt readyBlock.edges) idlePins).length = latencyAt readyBlock.edges ∧
    (∀ p ∈ List.replicate (latencyAt readyBlock.edges) idlePins, p.rstN = true) :=
  ⟨rfl, by simp [latencyAt], by simp, fun p hp => by rw [List.eq_of_mem_replicate hp]; rfl⟩

/-- A block with an ENC in flight, and the pins of a reset: the edge makes it the reset state. -/
theorem witness_ResetEdgeResetsAndTheBlockWakes : resetPins.rstN = false ∧
    ({ readyBlock with core := small, phase := .busy 0x0500000004#40 2 } : Block).phase = .busy 0x0500000004#40 2 ∧
    nextWith (fun k => k.core.a == 51#32 && k.core.outBuf == [] && !k.core.rspValid)
      (clockEdge resetPins { readyBlock with core := small, phase := .busy 0x0500000004#40 2 }) = true := by decide

theorem witness_BlockNeverResetIsRefused :
    ({ readyBlock with phase := .neverReset } : Block).phase = .neverReset ∧ idlePins.rstN = true := ⟨rfl, rfl⟩

theorem witness_OutputsShowTheLatchAndTheFlag :
    readyBlock.phase ≠ .neverReset ∧ readyBlock.core.rspValid = false ∧
    ({ readyBlock with core := after 0x0A00000000 State.reset } : Block).core.rspValid = true := by decide

theorem witness_EveryEdgeKeepsTheBlockSound : ({ readyBlock with core := small } : Block).Sound := ⟨small_sound, by decide⟩

theorem witness_PseudoInstructionsExpand :
    (65535 < 65536 ∧ 65535 + [1#8].length ≤ 65536 ∧ [1#8][0]? = some 1#8) ∧ 65535 + 1 ≤ 65536 ∧ 0 < 1 := by decide

/-- Both ends of each range, for each form of a number, and a number outside of each. -/
theorem witness_AssemblerChecksTheOperandRanges :
    (∀ n ∈ [Number.dec (-2147483648), .dec 2147483647, .hex 0, .hex 0xFFFFFFFF], allowedValue n) ∧
    (∀ n ∈ [Number.dec (-2147483649), .dec 2147483648, .hex 0x100000000, .chr 65], ¬allowedValue n) ∧
    (∀ n ∈ [Number.dec 0, .dec 255, .hex 0, .hex 255, .chr 0, .chr 127], allowedByte n) ∧
    (∀ n ∈ [Number.dec (-1), .dec 256, .hex 256, .chr 128], ¬allowedByte n) ∧
    (∀ n ∈ [Number.dec 0, .dec 65535, .hex 0, .hex 65535], allowedHalf n) ∧
    (∀ n ∈ [Number.dec (-1), .dec 65536, .hex 65536, .chr 65], ¬allowedHalf n) ∧
    0xFFFFFFFFFF < 2 ^ 40 ∧ ¬0x10000000000 < 2 ^ 40 := by
  simp [allowedValue, allowedByte, allowedHalf]

end Sys2Proof.Tests
end

/-! PROOFS. The encoding (spec 30_encoding.md R63 to R68): the fields of a word against the decoder's rows, and the statements
about them. -/

namespace Sys2Proof.EncodingProofs

open Sys2Proof.Machine
open Sys2Proof.Claims

/-! A word is its opcode and the fields of a format, most significant first (R64). -/

theorem append_eq_append_iff {m n : Nat} {x a : BitVec m} {y b : BitVec n} : x ++ y = a ++ b ↔ x = a ∧ y = b := by
  constructor
  · intro h
    have hx := congrArg (BitVec.extractLsb' n m) h
    have hy := congrArg (BitVec.extractLsb' 0 n) h
    rw [extract_append_high, extract_append_high] at hx
    rw [extract_append_low, extract_append_low] at hy
    exact ⟨hx, hy⟩
  · rintro ⟨rfl, rfl⟩
    rfl

theorem fields_formatK (w : CommandWord) : opField w ++ valueField w = w :=
  append_of_extracts 8 32 w rfl

theorem fields_formatY (w : CommandWord) : opField w ++ reservedY w ++ byteField w = w := by
  have h : opField w ++ reservedY w = w.extractLsb' 8 32 := BitVec.extractLsb'_append_extractLsb'_eq_extractLsb' rfl
  rw [h]
  exact append_of_extracts 32 8 w rfl

theorem fields_formatL (w : CommandWord) : opField w ++ reservedL w ++ lenField w = w := by
  have h : opField w ++ reservedL w = w.extractLsb' 16 24 := BitVec.extractLsb'_append_extractLsb'_eq_extractLsb' rfl
  rw [h]
  exact append_of_extracts 24 16 w rfl

theorem fields_formatW (w : CommandWord) : opField w ++ reservedHigh w ++ indexField w ++ dataField w = w := by
  have h : opField w ++ reservedHigh w = w.extractLsb' 24 16 := BitVec.extractLsb'_append_extractLsb'_eq_extractLsb' rfl
  have h' : w.extractLsb' 24 16 ++ indexField w = w.extractLsb' 8 32 :=
    BitVec.extractLsb'_append_extractLsb'_eq_extractLsb' rfl
  rw [h, h']
  exact append_of_extracts 32 8 w rfl

theorem fields_formatX (w : CommandWord) : opField w ++ reservedHigh w ++ indexField w ++ reservedLow w = w :=
  fields_formatW w

theorem fields_formatN (w : CommandWord) : opField w ++ reservedN w = w := fields_formatK w

/-! The masks of the opcode map (R66): a mask keeps the opcode and the reserved fields of its format and clears the operands. -/

/-- A masked word agrees with a match part by part. -/
theorem append_and_eq_append_iff {m n : Nat} {x k a : BitVec m} {y l b : BitVec n} :
    (x ++ y) &&& (k ++ l) = a ++ b ↔ x &&& k = a ∧ y &&& l = b := by
  rw [BitVec.and_append, append_eq_append_iff]

theorem maskK_eq_iff (w : CommandWord) (op : BitVec 8) : w &&& 0xFF00000000#40 = op ++ 0#32 ↔ opField w = op := by
  calc w &&& 0xFF00000000#40 = op ++ 0#32
      ↔ (opField w ++ valueField w) &&& (BitVec.allOnes 8 ++ 0#32) = op ++ 0#32 := by rw [fields_formatK]; rfl
    _ ↔ opField w = op := by simp only [↓append_and_eq_append_iff, ↓BitVec.and_allOnes, BitVec.and_zero, and_true]

theorem maskY_eq_iff (w : CommandWord) (op : BitVec 8) :
    w &&& 0xFFFFFFFF00#40 = op ++ 0#24 ++ 0#8 ↔ opField w = op ∧ reservedY w = 0#24 := by
  calc w &&& 0xFFFFFFFF00#40 = op ++ 0#24 ++ 0#8
      ↔ (opField w ++ reservedY w ++ byteField w) &&& (BitVec.allOnes 8 ++ BitVec.allOnes 24 ++ 0#8) =
          op ++ 0#24 ++ 0#8 := by rw [fields_formatY]; rfl
    _ ↔ opField w = op ∧ reservedY w = 0#24 := by
      simp only [↓append_and_eq_append_iff, ↓BitVec.and_allOnes, BitVec.and_zero, and_true]

theorem maskL_eq_iff (w : CommandWord) (op : BitVec 8) :
    w &&& 0xFFFFFF0000#40 = op ++ 0#16 ++ 0#16 ↔ opField w = op ∧ reservedL w = 0#16 := by
  calc w &&& 0xFFFFFF0000#40 = op ++ 0#16 ++ 0#16
      ↔ (opField w ++ reservedL w ++ lenField w) &&& (BitVec.allOnes 8 ++ BitVec.allOnes 16 ++ 0#16) =
          op ++ 0#16 ++ 0#16 := by rw [fields_formatL]; rfl
    _ ↔ opField w = op ∧ reservedL w = 0#16 := by
      simp only [↓append_and_eq_append_iff, ↓BitVec.and_allOnes, BitVec.and_zero, and_true]

theorem maskW_eq_iff (w : CommandWord) (op : BitVec 8) :
    w &&& 0xFFFF000000#40 = op ++ 0#8 ++ 0#16 ++ 0#8 ↔ opField w = op ∧ reservedHigh w = 0#8 := by
  calc w &&& 0xFFFF000000#40 = op ++ 0#8 ++ 0#16 ++ 0#8
      ↔ (opField w ++ reservedHigh w ++ indexField w ++ dataField w) &&&
            (BitVec.allOnes 8 ++ BitVec.allOnes 8 ++ 0#16 ++ 0#8) =
          op ++ 0#8 ++ 0#16 ++ 0#8 := by rw [fields_formatW]; rfl
    _ ↔ opField w = op ∧ reservedHigh w = 0#8 := by
      simp only [↓append_and_eq_append_iff, ↓BitVec.and_allOnes, BitVec.and_zero, and_true]

theorem maskX_eq_iff (w : CommandWord) (op : BitVec 8) :
    w &&& 0xFFFF0000FF#40 = op ++ 0#8 ++ 0#16 ++ 0#8 ↔ opField w = op ∧ reservedHigh w = 0#8 ∧ reservedLow w = 0#8 := by
  calc w &&& 0xFFFF0000FF#40 = op ++ 0#8 ++ 0#16 ++ 0#8
      ↔ (opField w ++ reservedHigh w ++ indexField w ++ reservedLow w) &&&
            (BitVec.allOnes 8 ++ BitVec.allOnes 8 ++ 0#16 ++ BitVec.allOnes 8) =
          op ++ 0#8 ++ 0#16 ++ 0#8 := by rw [fields_formatX]; rfl
    _ ↔ opField w = op ∧ reservedHigh w = 0#8 ∧ reservedLow w = 0#8 := by
      simp only [↓append_and_eq_append_iff, ↓BitVec.and_allOnes, BitVec.and_zero, and_true, and_assoc]

theorem maskN_eq_iff (w : CommandWord) (op : BitVec 8) :
    w &&& 0xFFFFFFFFFF#40 = op ++ 0#32 ↔ opField w = op ∧ reservedN w = 0#32 := by
  calc w &&& 0xFFFFFFFFFF#40 = op ++ 0#32
      ↔ (opField w ++ reservedN w) &&& (BitVec.allOnes 8 ++ BitVec.allOnes 32) = op ++ 0#32 := by
        rw [fields_formatN]; rfl
    _ ↔ opField w = op ∧ reservedN w = 0#32 := by simp only [↓append_and_eq_append_iff, ↓BitVec.and_allOnes]

/-! The decoder, said once by the fields of the word. -/

/-- The word has the opcode, the zero reserved fields and the operands of this command (R64 to R66). -/
def HasFields (w : CommandWord) : Instr → Prop
  | .seta v => opField w = 0x01#8 ∧ valueField w = v
  | .setb v => opField w = 0x02#8 ∧ valueField w = v
  | .encb p => opField w = 0x03#8 ∧ reservedY w = 0#24 ∧ byteField w = p
  | .decb q => opField w = 0x04#8 ∧ reservedY w = 0#24 ∧ byteField w = q
  | .enc n => opField w = 0x05#8 ∧ reservedL w = 0#16 ∧ lenField w = n
  | .dec n => opField w = 0x06#8 ∧ reservedL w = 0#16 ∧ lenField w = n
  | .wrin i d => opField w = 0x07#8 ∧ reservedHigh w = 0#8 ∧ indexField w = i ∧ dataField w = d
  | .rdin i => opField w = 0x08#8 ∧ reservedHigh w = 0#8 ∧ reservedLow w = 0#8 ∧ indexField w = i
  | .rdout i => opField w = 0x09#8 ∧ reservedHigh w = 0#8 ∧ reservedLow w = 0#8 ∧ indexField w = i
  | .rda => opField w = 0x0A#8 ∧ reservedN w = 0#32
  | .rdb => opField w = 0x0B#8 ∧ reservedN w = 0#32
  | .rdinv => opField w = 0x0C#8 ∧ reservedN w = 0#32
  | .rdstat => opField w = 0x0D#8 ∧ reservedN w = 0#32

theorem decode_eq_ok_iff {w : CommandWord} {i : Instr} : decode w = .ok i ↔ HasFields w i := by
  constructor
  · intro h
    unfold decode at h
    split at h
    case h_1 hop | h_2 hop =>
      cases h
      exact ⟨hop, rfl⟩
    case h_14 => cases h
    all_goals
      rename_i hop
      obtain ⟨hz, rfl⟩ := strict_ok_iff.mp h
      simpa [HasFields, hop] using hz
  · intro h
    cases i <;> simp_all [HasFields, decode, strict]

/-- R67 in the decoder's own field names. -/
theorem illegalWord_iff_fields (w : CommandWord) : illegalWord w ↔
    opField w = 0x00#8 ∨ 0x0E#8 ≤ opField w ∨
    ((opField w = 0x03#8 ∨ opField w = 0x04#8) ∧ reservedY w ≠ 0#24) ∨
    ((opField w = 0x05#8 ∨ opField w = 0x06#8) ∧ reservedL w ≠ 0#16) ∨
    (opField w = 0x07#8 ∧ reservedHigh w ≠ 0#8) ∨
    ((opField w = 0x08#8 ∨ opField w = 0x09#8) ∧ (reservedHigh w ≠ 0#8 ∨ reservedLow w ≠ 0#8)) ∨
    ((opField w = 0x0A#8 ∨ opField w = 0x0B#8 ∨ opField w = 0x0C#8 ∨ opField w = 0x0D#8) ∧ reservedN w ≠ 0#32) := Iff.rfl

/-- The illegal words of R67 are those the decoder refuses, for either of its two reasons (log 15). -/
theorem illegalWord_iff_decode_error (w : CommandWord) : illegalWord w ↔ ∃ e, decode w = .error e := by
  rw [illegalWord_iff_fields]
  unfold decode
  split
  case h_1 hop | h_2 hop => simp [hop]
  case h_14 =>
    have hunassigned : opField w = 0x00#8 ∨ 0x0E#8 ≤ opField w := by
      simp only [imp_false] at *
      bv_omega
    exact iff_of_true (hunassigned.imp_right .inl) ⟨_, rfl⟩
  all_goals
    rename_i hop
    rw [strict_error_iff]
    simp [hop, imp_iff_not_or]

/-- Settles O3: the mask of a row keeps exactly the fields the decoder tests for that row. -/
theorem opcodeMapSelectsTheCommand : Obligations.OpcodeMapSelectsTheCommand := by
  intro w
  simp only [decode_eq_ok_iff, HasFields, exists_and_left, exists_eq', and_true]
  exact ⟨(maskK_eq_iff w 0x01#8).symm, (maskK_eq_iff w 0x02#8).symm, (maskY_eq_iff w 0x03#8).symm,
    (maskY_eq_iff w 0x04#8).symm, (maskL_eq_iff w 0x05#8).symm, (maskL_eq_iff w 0x06#8).symm,
    (maskW_eq_iff w 0x07#8).symm, (maskX_eq_iff w 0x08#8).symm, (maskX_eq_iff w 0x09#8).symm,
    (maskN_eq_iff w 0x0A#8).symm, (maskN_eq_iff w 0x0B#8).symm, (maskN_eq_iff w 0x0C#8).symm,
    (maskN_eq_iff w 0x0D#8).symm⟩

/-- Settles O4: the operands are read off `HasFields`; a VALUE is reached by the word of format K that holds it. -/
theorem operandsAreTheWordsFields : Obligations.OperandsAreTheWordsFields := by
  simp only [Obligations.OperandsAreTheWordsFields, decode_eq_ok_iff]
  refine ⟨?_, ?_, ?_, ?_, ?_, fun v => ⟨⟨0x01#8 ++ v, ?_⟩, ⟨0x02#8 ++ v, ?_⟩⟩⟩
  · rintro w v (⟨_, hv⟩ | ⟨_, hv⟩) <;> exact hv.symm
  · rintro w p (⟨_, _, hp⟩ | ⟨_, _, hp⟩) <;> exact hp.symm
  · rintro w n (⟨_, _, hn⟩ | ⟨_, _, hn⟩) <;> exact hn.symm
  · rintro w i d ⟨_, _, hi, hd⟩
    exact ⟨hi.symm, hd.symm⟩
  · rintro w i (⟨_, _, _, hi⟩ | ⟨_, _, _, hi⟩) <;> exact hi.symm
  · exact ⟨extract_append_high _ _, extract_append_low _ _⟩
  · exact ⟨extract_append_high _ _, extract_append_low _ _⟩

/-- Settles O5: a refused word latches ERR_ILLEGAL with data 0 over the state it finds. -/
theorem illegalWordsOnlyReportTheError : Obligations.IllegalWordsOnlyReportTheError := by
  intro w
  refine ⟨illegalWord_iff_decode_error w, fun hw s => ?_⟩
  obtain ⟨e, he⟩ := (illegalWord_iff_decode_error w).mp hw
  exact acceptWord_of_error he s

end Sys2Proof.EncodingProofs

/-! PROOFS. Key management (spec 40_key_management.md R80 to R84): what each setter answers, said once per outcome, and the
statements about the scan and the setters. -/

namespace Sys2Proof.KeyManagementProofs

open Sys2Proof.Machine
open Sys2Proof.Claims
open Sys2Proof.EncodingProofs

/-! Format K leaves no reserved field, so every VALUE gives a legal word (R64, R66). -/

theorem decode_seta_word (v : BitVec 32) : decode (0x01#8 ++ v) = .ok (.seta v) :=
  decode_eq_ok_iff.mpr ⟨extract_append_high _ _, extract_append_low _ _⟩

theorem decode_setb_word (v : BitVec 32) : decode (0x02#8 ++ v) = .ok (.setb v) :=
  decode_eq_ok_iff.mpr ⟨extract_append_high _ _, extract_append_low _ _⟩

/-! The outcomes of the setters. -/

theorem exec_seta_of_even {v : BitVec 32} (h : v.getLsbD 0 = false) (s : State) :
    exec (.seta v) s = .next (latch .keyParity 0#32 s) := by
  have he : valueEven v = true := by rw [valueEven, h, Bool.not_false]
  exact if_pos he

theorem exec_seta_of_odd {v : BitVec 32} (h : v.getLsbD 0 = true) (s : State) :
    exec (.seta v) s = .next (latch .ok 0#32 { s with a := v, aInv := scan v }) := by
  have ho : ¬ valueEven v = true := by rw [valueEven, h]; decide
  exact if_neg ho

/-- The integer of VALUE reduced by floor modulo 256 is its low byte (R83). -/
theorem byteOfInt_valueInt (v : BitVec 32) : byteOfInt (valueInt v) = lowByte v := byteOfInt_eq (toInt_mod_256 v)

theorem exec_setb (v : BitVec 32) (s : State) :
    exec (.setb v) s = .next (latch .ok 0#32 { s with b := lowByte v }) := by
  rw [← byteOfInt_valueInt]
  rfl

/-- Settles O10: the loop invariant of the scan, `scanFrom_cases`, at its 255 candidates from 0. -/
theorem scanReturnsTheFirstInverse : Obligations.ScanReturnsTheFirstInverse := by
  intro v
  rcases scanFrom_cases v 255 0 with ⟨x, -, hx, hinv, hleast, hscan⟩ | ⟨hnone, hscan⟩
  · exact .inl ⟨x, by omega, hinv, fun y => hleast y y.zero_le, hscan⟩
  · exact .inr ⟨fun x hx => hnone x x.zero_le (by omega), hscan⟩

/-- Settles O14: the byte stored is the low byte of VALUE, which is its floor modulo 256. -/
theorem setbStoresValueMod256 : Obligations.SetbStoresValueMod256 :=
  ⟨decode_setb_word, fun v s => ⟨lowByte v, (toInt_mod_256 v).symm, rfl, exec_setb v s⟩⟩

/-- Settles O12: the parity of VALUE selects the outcome. -/
theorem setaStoresTheKeyAndItsInverse : Obligations.SetaStoresTheKeyAndItsInverse :=
  ⟨decode_seta_word, fun _ s h => exec_seta_of_even h s, fun _ s h => exec_seta_of_odd h s⟩

/-- Settles O15: each outcome of SETA writes both of A and A_INV or, with ERR_KEY_PARITY, neither. -/
theorem settersAreIndependent : Obligations.SettersAreIndependent := by
  refine ⟨fun v s t ht => ?_, fun v s t ht => ?_⟩
  · rcases Bool.eq_false_or_eq_true (v.getLsbD 0) with h | h
    · rw [exec_seta_of_odd h] at ht
      cases ht
      exact ⟨rfl, rfl, rfl, .inl ⟨rfl, rfl⟩⟩
    · rw [exec_seta_of_even h] at ht
      cases ht
      exact ⟨rfl, rfl, rfl, .inr ⟨rfl, rfl, (by decide : ErrCode.keyParity.code ≠ 0#4)⟩⟩
  · rw [exec_setb] at ht
    cases ht
    exact ⟨rfl, rfl, rfl, rfl⟩

end Sys2Proof.KeyManagementProofs

/-! PROOFS. The affine transform (spec 41_affine_transform.md R100 to R103): the words of format Y, the outcomes of the two byte
commands, and the statements about them. -/

namespace Sys2Proof.AffineTransformProofs

open Sys2Proof.Machine
open Sys2Proof.Claims
open Sys2Proof.EncodingProofs

/-- The fields of a word put together in format Y (R64). -/
theorem formatY_fields (op : BitVec 8) (z : BitVec 24) (p : BitVec 8) :
    opField (op ++ z ++ p) = op ∧ reservedY (op ++ z ++ p) = z ∧ byteField (op ++ z ++ p) = p := by
  have h := fields_formatY (op ++ z ++ p)
  rwa [append_eq_append_iff, append_eq_append_iff, and_assoc] at h

/-- Where R67 names a non-zero reserved field as illegal, the word answers ERR_ILLEGAL and nothing else. -/
theorem strictReserved_of_illegal {op : BitVec 8} {reserved : CommandWord → Prop}
    (h : ∀ w, opcode w = op → reserved w → illegalWord w) : strictReserved op reserved := fun w s hop hres =>
  (illegalWordsOnlyReportTheError w).2 (h w hop hres) s

/-- R67 for the two opcodes of format Y. -/
theorem strictReserved_formatY {op : BitVec 8} (hY : op = 0x03#8 ∨ op = 0x04#8) :
    strictReserved op (fun w => w.extractLsb 31 8 ≠ 0#24) :=
  strictReserved_of_illegal fun _ hop hres => .inr (.inr (.inl ⟨hop.symm ▸ hY, hres⟩))

/-! The outcomes of the byte commands. -/

theorem exec_encb_of_usable {s : State} (h : s.aInv ≠ 0xFFFFFFFF#32) (p : BitVec 8) :
    exec (.encb p) s = .next (latch .ok (byteResult (affineEnc s.a s.b p)) s) := if_pos ((keyUsable_iff s).mpr h)

theorem exec_encb_of_unusable {s : State} (h : s.aInv = 0xFFFFFFFF#32) (p : BitVec 8) :
    exec (.encb p) s = .next (latch .keyUnusable 0#32 s) := if_neg fun hu => (keyUsable_iff s).mp hu h

theorem exec_decb (q : BitVec 8) (s : State) :
    exec (.decb q) s = .next (latch .ok (byteResult (affineDec s.aInv s.b q)) s) := rfl

/-- Settles O19: the key check selects the outcome; the byte answered is AffineEnc, an integer reduced mod 256. -/
theorem encbEncryptsOneByte : Obligations.EncbEncryptsOneByte := by
  refine ⟨fun p => ?_, fun p s h => ?_, fun p s h => ?_, ?_⟩
  · exact decode_eq_ok_iff.mpr (formatY_fields 0x03#8 0#24 p)
  · exact ⟨affineEnc s.a s.b p, toNat_byteOfInt _, exec_encb_of_usable h p⟩
  · exact exec_encb_of_unusable h p
  · exact strictReserved_formatY (.inl rfl)

/-- Settles O20: with no key check, the byte answered is AffineDec, an integer reduced mod 256, in every state. -/
theorem decbDecryptsOneByte : Obligations.DecbDecryptsOneByte := by
  refine ⟨fun q => ?_, fun q s => ?_, ?_⟩
  · exact decode_eq_ok_iff.mpr (formatY_fields 0x04#8 0#24 q)
  · exact ⟨affineDec s.aInv s.b q, toNat_byteOfInt _, exec_decb q s⟩
  · exact strictReserved_formatY (.inr rfl)

end Sys2Proof.AffineTransformProofs

/-! PROOFS. Access (spec 43_access.md R140, R143 to R146): the words of formats W and N, the outcomes of WRIN and of the
register reads, and the statements about them. -/

namespace Sys2Proof.AccessProofs

open Sys2Proof.Machine
open Sys2Proof.Claims
open Sys2Proof.EncodingProofs
open Sys2Proof.AffineTransformProofs

/-! The words (R64, R67). -/

/-- The fields of a word put together in format W. -/
theorem formatW_fields (op z : BitVec 8) (i : BitVec 16) (d : BitVec 8) :
    opField (op ++ z ++ i ++ d) = op ∧ reservedHigh (op ++ z ++ i ++ d) = z ∧ indexField (op ++ z ++ i ++ d) = i ∧
      dataField (op ++ z ++ i ++ d) = d := by
  have h := fields_formatW (op ++ z ++ i ++ d)
  rwa [append_eq_append_iff, append_eq_append_iff, append_eq_append_iff, and_assoc, and_assoc] at h

/-- The fields of a word put together in format N. -/
theorem formatN_fields (op : BitVec 8) (z : BitVec 32) : opField (op ++ z) = op ∧ reservedN (op ++ z) = z :=
  append_eq_append_iff.mp (fields_formatN (op ++ z))

/-- R67 for the opcode of format W. -/
theorem strictReserved_formatW : strictReserved 0x07#8 (fun w => w.extractLsb 31 24 ≠ 0#8) :=
  strictReserved_of_illegal fun _ hop hres => .inr (.inr (.inr (.inr (.inl ⟨hop, hres⟩))))

/-- R67 for the four opcodes of format N. -/
theorem strictReserved_formatN {op : BitVec 8} (hN : op = 0x0A#8 ∨ op = 0x0B#8 ∨ op = 0x0C#8 ∨ op = 0x0D#8) :
    strictReserved op (fun w => w.extractLsb 31 0 ≠ 0#32) :=
  strictReserved_of_illegal fun _ hop hres => .inr (.inr (.inr (.inr (.inr (.inr ⟨hop.symm ▸ hN, hres⟩)))))

/-! The outcomes of WRIN. -/

theorem exec_wrin_of_inside {i : BitVec 16} {s : State} (h : i.toNat < s.bufBytes) (d : BitVec 8) :
    exec (.wrin i d) s = .next (latch .ok 0#32 { s with inBuf := s.inBuf.store i.toNat d }) :=
  if_pos (decide_eq_true h)

theorem exec_wrin_of_outside {i : BitVec 16} {s : State} (h : s.bufBytes ≤ i.toNat) (d : BitVec 8) :
    exec (.wrin i d) s = .next (latch .range 0#32 s) :=
  if_neg fun hi => absurd (of_decide_eq_true hi) (Nat.not_lt.mpr h)

/-! The outcomes of the register reads. -/

theorem exec_rda (s : State) : exec .rda s = .next (latch .ok s.a s) := rfl

theorem exec_rdb (s : State) : exec .rdb s = .next (latch .ok (s.b.setWidth 32) s) := rfl

theorem exec_rdinv (s : State) : exec .rdinv s = .next (latch .ok s.aInv s) := rfl

theorem exec_rdstat (s : State) : exec .rdstat s = .next (latch .ok (statusWord s) s) := rfl

/-- STATUS is the number 1 or 0, as the key is usable or not (10_state.md R26). -/
theorem statusWord_eq (s : State) : statusWord s = if s.aInv = 0xFFFFFFFF#32 then 0#32 else 1#32 := by
  by_cases h : s.aInv = 0xFFFFFFFF#32
  · rw [if_pos h, statusWord, (keyUsable_eq_false_iff s).mpr h]
    rfl
  · rw [if_neg h, statusWord, (keyUsable_iff s).mpr h]
    rfl

/-- Settles O26: the range check selects the outcome; inside the buffer IN becomes `store`, whose laws say what each index
reads. -/
theorem wrinWritesOneByte : Obligations.WrinWritesOneByte := by
  refine ⟨fun i d => ?_, fun i d s h => ?_, fun i d s h => ⟨s.inBuf.store i.toNat d, ?_, ?_, fun j hj => ?_⟩, ?_⟩
  · exact decode_eq_ok_iff.mpr (formatW_fields 0x07#8 0#8 i d)
  · exact exec_wrin_of_outside h d
  · exact exec_wrin_of_inside h d
  · exact lookup_store_same _ _ _
  · exact lookup_store_other _ _ hj
  · exact strictReserved_formatW

/-- Settles O29: the word is OP 0x0A with ARG 0, and RDA answers the register. -/
theorem rdaReadsTheStoredKey : Obligations.RdaReadsTheStoredKey :=
  ⟨decode_eq_ok_iff.mpr (formatN_fields 0x0A#8 0#32), exec_rda, strictReserved_formatN (.inl rfl)⟩

/-- Settles O30: the word is OP 0x0B with ARG 0, and RDB answers the register zero-extended. -/
theorem rdbReadsTheReducedKey : Obligations.RdbReadsTheReducedKey :=
  ⟨decode_eq_ok_iff.mpr (formatN_fields 0x0B#8 0#32), exec_rdb, strictReserved_formatN (.inr (.inl rfl))⟩

/-- Settles O31: the word is OP 0x0C with ARG 0, and RDINV answers the register. -/
theorem rdinvReadsTheStoredInverse : Obligations.RdinvReadsTheStoredInverse :=
  ⟨decode_eq_ok_iff.mpr (formatN_fields 0x0C#8 0#32), exec_rdinv, strictReserved_formatN (.inr (.inr (.inl rfl)))⟩

/-- Settles O32: RDSTAT answers STATUS, whose value `statusWord_eq` gives. -/
theorem rdstatReadsTheStatusWord : Obligations.RdstatReadsTheStatusWord := by
  refine ⟨?_, fun s => ?_, ?_⟩
  · exact decode_eq_ok_iff.mpr (formatN_fields 0x0D#8 0#32)
  · rw [exec_rdstat, statusWord_eq]
    rfl
  · exact strictReserved_formatN (.inr (.inr (.inr rfl)))

end Sys2Proof.AccessProofs

/-! PROOFS. Errors (spec 60_exceptions.md R160 to R167): the code each word answers with in each state, said once as a function,
its causes, and the statements about them. -/

namespace Sys2Proof.ExceptionsProofs

open Sys2Proof.Machine
open Sys2Proof.Claims
open Sys2Proof.EncodingProofs

/-! The codes are distinct (R161). -/

theorem ofCode?_code (e : ErrCode) : ErrCode.ofCode? e.code = some e := by
  cases e <;> rfl

theorem code_inj {e f : ErrCode} : e.code = f.code ↔ e = f := by
  refine ⟨fun h => Option.some_inj.mp ?_, congrArg ErrCode.code⟩
  rw [← ofCode?_code e, h, ofCode?_code]

/-! The checks, as the statements spell them (R164, R166). -/

theorem valueEven_iff (v : BitVec 32) : valueEven v = true ↔ v.getLsbD 0 = false := by
  rw [valueEven, Bool.not_eq_true']

theorem indexInBuffer_iff (i : BitVec 16) (s : State) : indexInBuffer i s = true ↔ i.toNat < s.bufBytes := decide_eq_true_iff

theorem lenInBuffer_iff (n : BitVec 16) (s : State) : lenInBuffer n s = true ↔ n.toNat ≤ s.bufBytes := decide_eq_true_iff

/-! The word of ENC. -/

/-- The fields of a word put together in format L (R64). -/
theorem formatL_fields (op : BitVec 8) (z n : BitVec 16) :
    opField (op ++ z ++ n) = op ∧ reservedL (op ++ z ++ n) = z ∧ lenField (op ++ z ++ n) = n := by
  have h := fields_formatL (op ++ z ++ n)
  rwa [append_eq_append_iff, append_eq_append_iff, and_assoc] at h

theorem decode_encode_enc (n : BitVec 16) : decode (encode (.enc n)) = .ok (.enc n) :=
  decode_eq_ok_iff.mpr (formatL_fields 0x05#8 0#16 n)

/-! The code of each command and of each word. -/

/-- The outcome completes with this code, and an error changes the latch of `s` only, with data 0 (R160). -/
def Answers (o : Host.Outcome State Fault Refusal) (e : ErrCode) (s : State) : Prop :=
  ∃ t, o = .next t ∧ t.rspErr = e.code ∧ (e ≠ .ok → t = latch e 0#32 s)

theorem answers_respond (d : Word) (u s : State) : Answers (respond d u) .ok s := ⟨_, rfl, rfl, fun h => absurd rfl h⟩

theorem answers_raiseErr (e : ErrCode) (s : State) : Answers (raiseErr e s) e s := ⟨_, rfl, rfl, fun _ => rfl⟩

theorem Answers.ite {c : Prop} [Decidable c] {o o' : Host.Outcome State Fault Refusal} {e e' : ErrCode} {s : State}
    (h : Answers o e s) (h' : Answers o' e' s) : Answers (if c then o else o') (if c then e else e') s := by
  split_ifs
  · exact h
  · exact h'

/-- The code a command ends with: the range check comes before the key check (R167). -/
def commandError (i : Instr) (s : State) : ErrCode :=
  match i with
  | .seta v => if valueEven v then .keyParity else .ok
  | .encb _ => if keyUsable s then .ok else .keyUnusable
  | .enc n => if lenInBuffer n s then (if keyUsable s then .ok else .keyUnusable) else .range
  | .dec n => if lenInBuffer n s then .ok else .range
  | .wrin j _ | .rdin j | .rdout j => if indexInBuffer j s then .ok else .range
  | .setb _ | .decb _ | .rda | .rdb | .rdinv | .rdstat => .ok

/-- The meaning of each command makes the checks of `commandError`, in their order. -/
theorem exec_answers (i : Instr) (s : State) : Answers (exec i s) (commandError i s) s := by
  cases i with
  | seta v => exact .ite (answers_raiseErr _ _) (answers_respond _ _ _)
  | enc n => exact .ite (.ite (answers_respond _ _ _) (answers_raiseErr _ _)) (answers_raiseErr _ _)
  | encb p | dec n | wrin j d | rdin j | rdout j => exact .ite (answers_respond _ _ _) (answers_raiseErr _ _)
  | setb v | decb q | rda | rdb | rdinv | rdstat => exact answers_respond _ _ _

/-- The code a word ends with: an illegal word makes no further check (R167). -/
def wordError (w : CommandWord) (s : State) : ErrCode :=
  match decode w with
  | .ok i => commandError i s
  | .error _ => .illegal

theorem wordError_of_ok {w : CommandWord} {i : Instr} (h : decode w = .ok i) (s : State) :
    wordError w s = commandError i s := by
  rw [wordError, h]

theorem wordError_of_error {w : CommandWord} {x : DecodeError} (h : decode w = .error x) (s : State) :
    wordError w s = .illegal := by
  rw [wordError, h]

theorem acceptWord_answers (w : CommandWord) (s : State) : Answers (acceptWord w s) (wordError w s) s := by
  cases h : decode w with
  | ok i =>
    rw [acceptWord_of_ok h, wordError_of_ok h]
    exact exec_answers i s
  | error x =>
    rw [acceptWord_of_error h, wordError_of_error h]
    exact answers_raiseErr .illegal s

/-- A word with an error latches its code with data 0 over the state it finds (R160). -/
theorem acceptWord_of_wordError {w : CommandWord} {s : State} {e : ErrCode} (he : wordError w s = e) (hne : e ≠ .ok) :
    acceptWord w s = .next (latch e 0#32 s) := by
  obtain ⟨t, ht, -, hlatch⟩ := acceptWord_answers w s
  rw [ht, hlatch (he ▸ hne), he]

theorem rspErr_eq_code_wordError {w : CommandWord} {s t : State} (h : acceptWord w s = .next t) :
    t.rspErr = (wordError w s).code := by
  obtain ⟨u, hu, hcode, -⟩ := acceptWord_answers w s
  cases h.symm.trans hu
  exact hcode

theorem rspErr_eq_code_iff {w : CommandWord} {s t : State} (h : acceptWord w s = .next t) (e : ErrCode) :
    t.rspErr = e.code ↔ wordError w s = e := by
  rw [rspErr_eq_code_wordError h, code_inj]

theorem eq_failed_of_rspErr_ne {w : CommandWord} {s t : State} (h : acceptWord w s = .next t) (ht : t.rspErr ≠ 0#4) :
    t = failed t.rspErr s := by
  have hne : wordError w s ≠ .ok := mt (rspErr_eq_code_iff h .ok).mpr ht
  cases h.symm.trans (acceptWord_of_wordError rfl hne)
  rfl

/-! The causes of each code (R162 to R166), of a command and of a word. The named cases are the commands that can raise it. -/

theorem commandError_eq_keyParity_iff (i : Instr) (s : State) :
    commandError i s = .keyParity ↔ ∃ v, i = .seta v ∧ v.getLsbD 0 = false := by
  cases i with
  | seta v => simp [commandError, valueEven_iff]
  | _ => simp [commandError, ite_eq_iff]

theorem commandError_eq_keyUnusable_iff (i : Instr) (s : State) :
    commandError i s = .keyUnusable ↔ s.aInv = 0xFFFFFFFF#32 ∧
      ((∃ p, i = .encb p) ∨ ∃ n, i = .enc n ∧ n.toNat ≤ s.bufBytes) := by
  cases i with
  | encb p => simp [commandError, keyUsable_iff]
  | enc n => simp [commandError, ite_eq_iff, keyUsable_iff, lenInBuffer_iff, and_comm]
  | _ => simp [commandError, ite_eq_iff]

theorem commandError_eq_range_iff (i : Instr) (s : State) :
    commandError i s = .range ↔
      (∃ j, ((∃ d, i = .wrin j d) ∨ i = .rdin j ∨ i = .rdout j) ∧ s.bufBytes ≤ j.toNat) ∨
      ∃ n, (i = .enc n ∨ i = .dec n) ∧ s.bufBytes < n.toNat := by
  cases i with
  | enc n | dec n => simp [commandError, ite_eq_iff, lenInBuffer_iff]
  | wrin j d | rdin j | rdout j => simp [commandError, indexInBuffer_iff]
  | _ => simp [commandError, ite_eq_iff]

theorem commandError_ne_keyType (i : Instr) (s : State) : commandError i s ≠ .keyType := by
  cases i <;> simp [commandError, ite_eq_iff]

theorem commandError_ne_illegal (i : Instr) (s : State) : commandError i s ≠ .illegal := by
  cases i <;> simp [commandError, ite_eq_iff]

theorem wordError_ne_keyType (w : CommandWord) (s : State) : wordError w s ≠ .keyType := by
  cases h : decode w with
  | ok i => rw [wordError_of_ok h]; exact commandError_ne_keyType i s
  | error x => rw [wordError_of_error h]; decide

theorem wordError_eq_keyParity_iff (w : CommandWord) (s : State) :
    wordError w s = .keyParity ↔ ∃ v, decode w = .ok (.seta v) ∧ v.getLsbD 0 = false := by
  cases h : decode w with
  | ok i => simp only [wordError_of_ok h, commandError_eq_keyParity_iff, Except.ok.injEq]
  | error x => simp [wordError_of_error h]

theorem wordError_eq_keyUnusable_iff (w : CommandWord) (s : State) :
    wordError w s = .keyUnusable ↔ s.aInv = 0xFFFFFFFF#32 ∧
      ((∃ p, decode w = .ok (.encb p)) ∨ ∃ n, decode w = .ok (.enc n) ∧ n.toNat ≤ s.bufBytes) := by
  cases h : decode w with
  | ok i => simp only [wordError_of_ok h, commandError_eq_keyUnusable_iff, Except.ok.injEq]
  | error x => simp [wordError_of_error h]

theorem wordError_eq_range_iff (w : CommandWord) (s : State) :
    wordError w s = .range ↔
      (∃ j, ((∃ d, decode w = .ok (.wrin j d)) ∨ decode w = .ok (.rdin j) ∨ decode w = .ok (.rdout j)) ∧
        s.bufBytes ≤ j.toNat) ∨
      ∃ n, (decode w = .ok (.enc n) ∨ decode w = .ok (.dec n)) ∧ s.bufBytes < n.toNat := by
  cases h : decode w with
  | ok i => simp only [wordError_of_ok h, commandError_eq_range_iff, Except.ok.injEq]
  | error x => simp [wordError_of_error h]

theorem wordError_eq_illegal_iff (w : CommandWord) (s : State) : wordError w s = .illegal ↔ illegalWord w := by
  rw [illegalWord_iff_decode_error]
  cases h : decode w with
  | ok i => simp [wordError_of_ok h, commandError_ne_illegal]
  | error x => simp [wordError_of_error h]

/-- Settles O36: the state after an error differs from the one before in the latch only, which no command reads. -/
theorem errorsLeaveTheStateUnchanged : Obligations.ErrorsLeaveTheStateUnchanged := by
  intro w s t h hne
  have ht := eq_failed_of_rspErr_ne h hne
  refine ⟨ht, fun w' => ?_⟩
  rw [ht]
  exact acceptWord_withLatch w' true t.rspErr 0#32 s

/-- Settles O37: the code answered is that of `wordError`, whose causes are known code by code. -/
theorem errorCausesAreExact : Obligations.ErrorCausesAreExact := by
  intro w s t h
  refine ⟨?_, ?_, ?_, ?_, ?_, eq_failed_of_rspErr_ne h⟩
  · rw [rspErr_eq_code_wordError h]
    cases he : wordError w s with
    | keyType => exact absurd he (wordError_ne_keyType w s)
    | ok | keyParity | keyUnusable | illegal | range => decide
  · exact (rspErr_eq_code_iff h .keyParity).trans (wordError_eq_keyParity_iff w s)
  · exact (rspErr_eq_code_iff h .keyUnusable).trans (wordError_eq_keyUnusable_iff w s)
  · exact (rspErr_eq_code_iff h .illegal).trans (wordError_eq_illegal_iff w s)
  · exact (rspErr_eq_code_iff h .range).trans (wordError_eq_range_iff w s)

/-- Settles O38: `wordError` makes the checks of ENC in this order; a word with a parity check is a SETA and one with a key
check is not. -/
theorem errorPriority : Obligations.ErrorPriority := by
  refine ⟨fun w s hw => (illegalWordsOnlyReportTheError w).2 hw s, fun n s hn _ => ?_, fun n s hn hinv => ?_, ?_⟩
  · have he : wordError (encode (.enc n)) s = .range :=
      (wordError_eq_range_iff _ s).mpr (.inr ⟨n, .inl (decode_encode_enc n), hn⟩)
    exact acceptWord_of_wordError he (by decide)
  · have he : wordError (encode (.enc n)) s = .keyUnusable :=
      (wordError_eq_keyUnusable_iff _ s).mpr ⟨hinv, .inr ⟨n, decode_encode_enc n, hn⟩⟩
    exact acceptWord_of_wordError he (by decide)
  · rintro w ⟨⟨s, t, h, hparity⟩, s', t', h', hunusable⟩
    obtain ⟨v, hv, -⟩ := (wordError_eq_keyParity_iff w s).mp ((rspErr_eq_code_iff h .keyParity).mp hparity)
    obtain ⟨-, ⟨p, hp⟩ | ⟨n, hn, -⟩⟩ :=
      (wordError_eq_keyUnusable_iff w s').mp ((rspErr_eq_code_iff h' .keyUnusable).mp hunusable)
    · cases hv.symm.trans hp
    · cases hv.symm.trans hn

end Sys2Proof.ExceptionsProofs

/-! PROOFS. The encoder against the decoder (spec 30_encoding.md R64 to R68): a word decodes to a command exactly when it is
that command's word. -/

namespace Sys2Proof.EncodingInverseProofs

open Sys2Proof.EncodingProofs

/-! A word is put together from given fields exactly when these are its fields (R64). -/

theorem eq_formatK_iff {w : CommandWord} {op : BitVec 8} {v : BitVec 32} :
    w = op ++ v ↔ opField w = op ∧ valueField w = v := by
  rw [← append_eq_append_iff, fields_formatK]

theorem eq_formatN_iff {w : CommandWord} {op : BitVec 8} {z : BitVec 32} :
    w = op ++ z ↔ opField w = op ∧ reservedN w = z := eq_formatK_iff

theorem eq_formatY_iff {w : CommandWord} {op p : BitVec 8} {z : BitVec 24} :
    w = op ++ z ++ p ↔ opField w = op ∧ reservedY w = z ∧ byteField w = p := by
  rw [← and_assoc, ← append_eq_append_iff, ← append_eq_append_iff, fields_formatY]

theorem eq_formatL_iff {w : CommandWord} {op : BitVec 8} {z n : BitVec 16} :
    w = op ++ z ++ n ↔ opField w = op ∧ reservedL w = z ∧ lenField w = n := by
  rw [← and_assoc, ← append_eq_append_iff, ← append_eq_append_iff, fields_formatL]

theorem eq_formatW_iff {w : CommandWord} {op z d : BitVec 8} {i : BitVec 16} :
    w = op ++ z ++ i ++ d ↔ opField w = op ∧ reservedHigh w = z ∧ indexField w = i ∧ dataField w = d := by
  rw [← and_assoc, ← and_assoc, ← append_eq_append_iff, ← append_eq_append_iff, ← append_eq_append_iff, fields_formatW]

theorem eq_formatX_iff {w : CommandWord} {op z z' : BitVec 8} {i : BitVec 16} :
    w = op ++ z ++ i ++ z' ↔ opField w = op ∧ reservedHigh w = z ∧ reservedLow w = z' ∧ indexField w = i := by
  rw [@and_comm (reservedLow w = z')]
  exact eq_formatW_iff

/-- The encoder writes the fields the decoder tests and reads. -/
theorem eq_encode_iff_hasFields {w : CommandWord} {i : Instr} : w = encode i ↔ HasFields w i := by
  cases i with
  | seta v | setb v => exact eq_formatK_iff
  | encb p | decb q => exact eq_formatY_iff
  | enc n | dec n => exact eq_formatL_iff
  | wrin j d => exact eq_formatW_iff
  | rdin j | rdout j => exact eq_formatX_iff
  | rda | rdb | rdinv | rdstat => exact eq_formatN_iff

theorem decode_eq_ok_iff_eq_encode {w : CommandWord} {i : Instr} : decode w = .ok i ↔ w = encode i :=
  decode_eq_ok_iff.trans eq_encode_iff_hasFields.symm

/-- Settles O1: the word of a command is its own word. -/
theorem decodeInvertsEncode : Obligations.DecodeInvertsEncode := fun _ => decode_eq_ok_iff_eq_encode.mpr rfl

/-- Settles O2: the only word that decodes to a command is that command's word. -/
theorem encodeInvertsDecode : Obligations.EncodeInvertsDecode := fun _ _ h => (decode_eq_ok_iff_eq_encode.mp h).symm

/-- Settles O6: each word is the encoder's word of the command named. -/
theorem specWordsDecodeToTheirCommands : Obligations.SpecWordsDecodeToTheirCommands := by
  simp only [Obligations.SpecWordsDecodeToTheirCommands, decode_eq_ok_iff_eq_encode]
  decide

end Sys2Proof.EncodingInverseProofs

/-! PROOFS. The arithmetic of the block (spec 40_key_management.md R81, R82; 10_state.md R25; 41_affine_transform.md R100,
R101, R103, R105): inverses mod 256 as byte products, and the statements about the scan and the two byte functions. -/

namespace Sys2Proof.ArithmeticProofs

open Sys2Proof.Machine
open Sys2Proof.KeyManagementProofs

/-! Inverses in Z mod 256 are inverses of low bytes. -/

theorem ofNat_mul_lowByte_eq_one_iff (x : Nat) (v : Word) :
    BitVec.ofNat 8 x * lowByte v = 1#8 ↔ (x * v.toNat) % 256 = 1 := by
  rw [← BitVec.toNat_inj]
  simp [lowByte, BitVec.toNat_mul, Nat.mul_mod]

theorem scan_toNat_mul_mod_256 {v : Word} (h : v.getLsbD 0 = true) : ((scan v).toNat * v.toNat) % 256 = 1 :=
  (ofNat_mul_lowByte_eq_one_iff _ _).mp (lowByte_scan_mul h)

/-- A byte has one inverse at most. -/
theorem ofNat_eq_of_mul_eq_one {x y : Nat} {c : Byte} (hx : BitVec.ofNat 8 x * c = 1#8) (hy : BitVec.ofNat 8 y * c = 1#8) :
    BitVec.ofNat 8 x = BitVec.ofNat 8 y :=
  left_inv_eq_right_inv hx ((mul_comm _ _).trans hy)

/-- The range and parity of an inverse Scan finds (R81). -/
theorem scan_bounds {v : Word} (h : v.getLsbD 0 = true) (hff : lowByte v ≠ 0xFF#8) :
    1 ≤ (scan v).toNat ∧ (scan v).toNat ≤ 253 ∧ (scan v).toNat % 2 = 1 := by
  have hc := scan_byte_cases (lowByte v)
  rw [← scan_eq_scan_lowByte, lowByte_getLsbD_zero, if_neg (by simp [h, hff])] at hc
  obtain ⟨-, hlow, hhigh, hodd⟩ := hc
  refine ⟨hlow, hhigh, ?_⟩
  simpa [BitVec.getLsbD, Nat.testBit_zero] using hodd

/-- Settles O11: the low byte decides Scan's result, case by case of the 256; a product 1 has one cofactor. -/
theorem scanHasItsClosedForm : Obligations.ScanHasItsClosedForm := by
  refine ⟨fun u v h => scan_congr h, fun v hodd hff => ?_, fun v hff => ?_, fun v heven => ?_⟩
  · obtain ⟨hlow, hhigh, hpar⟩ := scan_bounds hodd hff
    have hinv := scan_toNat_mul_mod_256 hodd
    refine ⟨(scan v).toNat, by simp, hlow, hhigh, hpar, hinv, fun y hy hyinv => ?_⟩
    have heq := ofNat_eq_of_mul_eq_one ((ofNat_mul_lowByte_eq_one_iff y v).mpr hyinv)
      ((ofNat_mul_lowByte_eq_one_iff _ v).mpr hinv)
    have := congrArg BitVec.toNat heq
    simp only [BitVec.toNat_ofNat] at this
    omega
  · exact (scan_eq_sentinel_iff v).mpr (.inr hff)
  · exact (scan_eq_sentinel_iff v).mpr (.inl heven)

/-! KEY_USABLE (10_state.md R25). -/

/-- With A_INV = Scan of an odd key, the flag is the low byte's. -/
theorem keyUsable_iff_lowByte {s : State} {v : Word} (hinv : s.aInv = scan v) (hodd : v.getLsbD 0 = true) :
    keyUsable s = true ↔ lowByte v ≠ 0xFF#8 := by
  rw [keyUsable_iff, hinv]
  exact not_congr ((scan_eq_sentinel_iff v).trans (by simp [hodd]))

/-- Settles O13: SETA of an odd VALUE writes Scan's result, and of an even one nothing but the latch. -/
theorem setaDecidesKeyUsable : Obligations.SetaDecidesKeyUsable := by
  intro v s
  rcases Bool.eq_false_or_eq_true (v.getLsbD 0) with hodd | heven
  · exact ⟨_, exec_seta_of_odd hodd s, fun _ => keyUsable_iff_lowByte rfl hodd,
      fun heven => Bool.noConfusion (hodd.symm.trans heven)⟩
  · exact ⟨_, exec_seta_of_even heven s, fun hodd => Bool.noConfusion (heven.symm.trans hodd), fun _ => rfl⟩

/-- Settles O16: in a sound state A_INV is Scan's result for the odd A. -/
theorem keyIsUnusableExactlyForLowByteFF : Obligations.KeyIsUnusableExactlyForLowByteFF := by
  intro s hs
  have hflag := keyUsable_iff_lowByte hs.inverse hs.odd
  refine ⟨?_, fun _ => ?_⟩
  · rw [← Bool.not_eq_true]
    exact (not_congr hflag).trans not_not
  · rw [hs.inverse]
    exact scan_toNat_mul_mod_256 hs.odd

/-! The two byte functions (R100, R101, R103). -/

/-- With the sentinel in A_INV, which is −1 mod 256 (R101). -/
theorem affineDec_sentinel (b q : Byte) : affineDec Config.sentinel b q = b - q := by
  have hneg : lowByte Config.sentinel = -1 := by decide
  rw [affineDec_eq, hneg, neg_one_mul, neg_sub]

/-- Settles O17: the byte forms are `affineEnc_eq` and `affineDec_eq`. -/
theorem affineFunctionsAreTheirFormulas : Obligations.AffineFunctionsAreTheirFormulas :=
  ⟨fun a b p => ⟨toNat_byteOfInt _, affineEnc_eq a b p⟩, fun inv b q => ⟨toNat_byteOfInt _, affineDec_eq inv b q⟩,
    affineDec_sentinel⟩

theorem affineEnc_affineDec {a : Word} (h : a.getLsbD 0 = true) (b q : Byte) :
    affineEnc a b (affineDec (scan a) b q) = q := by
  rw [affineEnc_eq, affineDec_eq, ← mul_assoc, mul_comm (lowByte a), lowByte_scan_mul h]
  exact (congrArg (· + b) (one_mul (q - b))).trans (sub_add_cancel q b)

/-- Settles O18: AffineDec with Scan's result is the two-sided inverse of AffineEnc. -/
theorem decryptionInvertsEncryption : Obligations.DecryptionInvertsEncryption := fun a b hodd =>
  ⟨affineDec_affineEnc hodd b, Function.bijective_iff_has_inverse.mpr
    ⟨affineDec (scan a) b, affineDec_affineEnc hodd b, affineEnc_affineDec hodd b⟩⟩

end Sys2Proof.ArithmeticProofs

/-! PROOFS. The step (spec 30_encoding.md R62; 10_state.md R20, R24, R30, R31; 70_reset_and_hazards.md R180, R182, R191): what
one host action does, the invariant it keeps, and who writes each piece of state. -/

namespace Sys2Proof.StepProofs

open Sys2Proof.Machine
open Sys2Proof.Claims
open Sys2Proof.ExceptionsProofs
open Sys2Proof.ArithmeticProofs

/-! One step (R62): the first of the host's actions, or nothing. -/

theorem step_of_nil {s : State} (h : s.inputs = []) : step s = .next s := by
  simp [step, h]

theorem step_of_cons {s : State} {x : HostInput} {rest : List HostInput} (h : s.inputs = x :: rest) :
    step s = acceptInput x { s with inputs := rest } := by
  simp [step, h]

theorem acceptInput_of_reset {x : HostInput} (h : x = .reset ∨ ∃ w, x = .abandoned w) (s : State) :
    acceptInput x s = .next (pulseReset s) := by
  rcases h with rfl | ⟨w, rfl⟩ <;> rfl

/-- Everything one step can do. -/
theorem step_cases {s t : State} (ht : step s = .next t) :
    (s.inputs = [] ∧ t = s) ∨
      (resets s ∧ t = pulseReset { s with inputs := s.inputs.tail }) ∨
      ∃ w rest, s.inputs = .command w :: rest ∧ acceptWord w { s with inputs := rest } = .next t := by
  cases hin : s.inputs with
  | nil =>
    cases (step_of_nil hin).symm.trans ht
    exact .inl ⟨rfl, rfl⟩
  | cons x rest =>
    rw [step_of_cons hin] at ht
    cases x with
    | command w => exact .inr (.inr ⟨w, rest, rfl, ht⟩)
    | reset =>
      cases ht
      exact .inr (.inl ⟨⟨rest, .inl hin⟩, rfl⟩)
    | abandoned w =>
      cases ht
      exact .inr (.inl ⟨⟨rest, .inr ⟨w, hin⟩⟩, rfl⟩)

theorem decode_tableWord_of_decodeTableWord {nbits w : Nat} {i : Instr} (h : decodeTableWord nbits w = some i) :
    decode (tableWord nbits w) = .ok i := by
  unfold decodeTableWord at h
  split at h
  case h_1 j hj => exact hj.trans (congrArg Except.ok (Option.some.inj h))
  case h_2 => cases h

/-- Settles O7: a step passes the first word to `acceptWord`, which is `exec` of the command decoded. -/
theorem stepRunsTheDecodedCommand : Obligations.StepRunsTheDecodedCommand := by
  refine ⟨fun w s i h => acceptWord_of_ok h s, fun s w rest h => step_of_cons h, fun s w rest i hin h => ?_,
    fun s nbits w i h => ?_⟩
  · exact (step_of_cons hin).trans (acceptWord_of_ok h _)
  · have hstep := step_of_cons (withFetchWord_inputs s nbits w)
    exact hstep.trans (acceptWord_of_ok (decode_tableWord_of_decodeTableWord h) _)

/-! Every accepted word completes with a response (R191). -/

theorem readResponse_latch (e : ErrCode) (d : Word) (s : State) :
    readResponse (latch e d s) = .ok (some { err := e, data := d }) := by
  simp [readResponse, ofCode?_code]

theorem commandEffect_exists_latch {i : Instr} {s t : State} (h : CommandEffect i s t) : ∃ e d u, t = latch e d u := by
  rcases h with ⟨e, -, rfl⟩ | ⟨v, -, -, rfl⟩ | ⟨v, -, rfl⟩ | ⟨n, f, -, -, rfl⟩ | ⟨j, d, -, -, rfl⟩ | ⟨d, k, rfl⟩
  all_goals exact ⟨_, _, _, rfl⟩

theorem acceptWord_exists_latch (w : CommandWord) (s : State) : ∃ e d u, acceptWord w s = .next (latch e d u) := by
  obtain ⟨t, ht, ⟨-, rfl⟩ | ⟨i, -, heff⟩⟩ := acceptWord_effect w s
  · exact ⟨_, _, _, ht⟩
  · obtain ⟨e, d, u, rfl⟩ := commandEffect_exists_latch heff
    exact ⟨e, d, u, ht⟩

theorem acceptInput_exists_next (x : HostInput) (s : State) : ∃ t, acceptInput x s = .next t := by
  cases x with
  | command w =>
    obtain ⟨e, d, u, h⟩ := acceptWord_exists_latch w s
    exact ⟨_, h⟩
  | reset | abandoned w => exact ⟨_, rfl⟩

/-- Settles O9: every word leaves a latched response, which can be read. -/
theorem everyCommandCompletesWithAResponse : Obligations.EveryCommandCompletesWithAResponse := by
  refine ⟨fun w s => ?_, fun s => ?_⟩
  · obtain ⟨e, d, u, h⟩ := acceptWord_exists_latch w s
    exact ⟨_, { err := e, data := d }, h, rfl, readResponse_latch e d u, rfl, rfl⟩
  · cases hin : s.inputs with
    | nil => exact ⟨s, step_of_nil hin⟩
    | cons x rest =>
      rw [step_of_cons hin]
      exact acceptInput_exists_next x _

/-! The reset values (10_state.md R30). -/

theorem atReset_pulseReset (s : State) : atReset (pulseReset s) :=
  ⟨rfl, rfl, rfl, lookup_nil, lookup_nil, rfl, rfl⟩

/-- Settles O41: a reset leaves the reset state as it is. -/
theorem resetStateHasTheSpecsValues : Obligations.ResetStateHasTheSpecsValues := by
  have husable : keyUsable State.reset = true := by decide
  refine ⟨atReset_pulseReset State.reset, husable, ?_⟩
  rw [AccessProofs.exec_rdstat, AccessProofs.statusWord_eq, if_neg ((keyUsable_iff _).mp husable)]
  rfl

/-- Settles O42: the command in flight takes no part in what the reset leaves. -/
theorem resetAbandonsTheCommandInFlight : Obligations.ResetAbandonsTheCommandInFlight := by
  intro s x rest hx hin
  exact ⟨_, (step_of_cons hin).trans (acceptInput_of_reset hx _), atReset_pulseReset _, rfl, rfl⟩

/-! The invariant (10_state.md R24, R31), kept by each update of the state. -/

/-- The reset value of A_INV is Scan's result for that of A, as 251 · 51 leaves 1 mod 256 (R30, R31). -/
theorem scan_resetA : scan Config.resetA = Config.resetAInv := by
  obtain ⟨-, hinverse, -, -⟩ := scanHasItsClosedForm
  obtain ⟨x, hscan, -, -, -, -, honly⟩ := hinverse Config.resetA (by decide) (by decide)
  rw [hscan, ← honly 251 (by decide) (by decide)]
  rfl

/-- A reset establishes the invariant; it asks only that BUF_BYTES is legal. -/
theorem sound_pulseReset {s : State} (hsize : 1 ≤ s.bufBytes ∧ s.bufBytes ≤ Config.maxBufBytes) : (pulseReset s).Sound where
  inverse := scan_resetA.symm
  odd := (by decide : Config.resetA.getLsbD 0 = true)
  input := nil_sound _
  output := nil_sound _
  size := hsize
  latch hv := absurd hv Bool.false_ne_true

theorem sound_withInputs {s : State} (h : s.Sound) (xs : List HostInput) : ({ s with inputs := xs } : State).Sound :=
  { h with }

/-- While RSP_VALID = 0 the latch is not looked at. -/
theorem sound_latchCleared {s : State} (h : s.Sound) : ({ s with rspValid := false } : State).Sound :=
  { h with latch := fun hv => absurd hv Bool.false_ne_true }

theorem latchSound_latch {e : ErrCode} {d : Word} (s : State) (hkt : e ≠ .keyType) (hd : e = .ok ∨ d = 0#32) :
    latchSound (latch e d s) := by
  refine fun _ => ⟨?_, fun hne => hd.resolve_left fun he => hne (congrArg ErrCode.code he)⟩
  cases e with
  | keyType => exact absurd rfl hkt
  | ok | keyParity | keyUnusable | illegal | range => simp

theorem sound_latch {s : State} (h : s.Sound) {e : ErrCode} {d : Word} (hkt : e ≠ .keyType) (hd : e = .ok ∨ d = 0#32) :
    (latch e d s).Sound :=
  { h with latch := latchSound_latch s hkt hd }

theorem sound_respond {s : State} (h : s.Sound) (d : Word) : (latch .ok d s).Sound := sound_latch h (by decide) (.inl rfl)

theorem commandEffect_keeps_sound {i : Instr} {s t : State} (h : s.Sound) (heff : CommandEffect i s t) : t.Sound := by
  rcases heff with ⟨e, he, rfl⟩ | ⟨v, -, hodd, rfl⟩ | ⟨v, -, rfl⟩ | ⟨n, f, -, hn, rfl⟩ | ⟨j, d, -, hj, rfl⟩ | ⟨d, k, rfl⟩
  case inl =>
    have hkt : e ≠ .keyType := by rcases he with rfl | rfl | rfl <;> decide
    exact sound_latch h hkt (.inr rfl)
  all_goals apply sound_respond
  · exact { h with inverse := rfl, odd := hodd }
  · exact { h with }
  · exact { h with output := passOut_sound hn h.output }
  · exact { h with input := store_sound _ _ hj h.input }
  · exact { h with }

theorem acceptWord_keeps_sound {w : CommandWord} {s t : State} (h : s.Sound) (ht : acceptWord w s = .next t) : t.Sound := by
  obtain ⟨u, hu, hcases⟩ := acceptWord_effect w s
  cases ht.symm.trans hu
  rcases hcases with ⟨-, rfl⟩ | ⟨i, -, heff⟩
  · exact sound_latch h (by decide) (.inr rfl)
  · exact commandEffect_keeps_sound h heff

/-- Settles O43: the reset state is what a reset leaves of itself, and 256 is a legal BUF_BYTES. -/
theorem resetStateIsSound : Obligations.ResetStateIsSound :=
  sound_pulseReset (s := State.reset) (by decide)

/-- Settles O44: a reset establishes the invariant anew, and each effect of a command keeps it. -/
theorem everyStepKeepsTheStateSound : Obligations.EveryStepKeepsTheStateSound := by
  intro s t h ht
  rcases step_cases ht with ⟨-, rfl⟩ | ⟨-, rfl⟩ | ⟨w, rest, -, haccept⟩
  · exact h
  · exact sound_pulseReset h.size
  · exact acceptWord_keeps_sound (sound_withInputs h rest) haccept

/-! The writers of each piece of state (10_state.md R20). -/

/-- What the word that takes `s` to `t` has changed, and that its command is a writer of it. -/
structure WritesOnlyItsOwn (w : CommandWord) (s t : State) : Prop where
  key : t.a ≠ s.a ∨ t.aInv ≠ s.aInv → ∃ v, decode w = .ok (.seta v) ∧ v.getLsbD 0 = true ∧ t.a = v
  b : t.b ≠ s.b → ∃ v, decode w = .ok (.setb v)
  input : t.inBuf ≠ s.inBuf → ∃ j d, decode w = .ok (.wrin j d) ∧ j.toNat < s.bufBytes
  output : t.outBuf ≠ s.outBuf → ∃ n, (decode w = .ok (.enc n) ∨ decode w = .ok (.dec n)) ∧ n.toNat ≤ s.bufBytes
  bufBytes : t.bufBytes = s.bufBytes
  inputs : t.inputs = s.inputs
  draws : s.draws ≤ t.draws

/-- A new response and more draws change nothing that has a writer among the commands. -/
theorem writesOnlyItsOwn_latch_draws (w : CommandWord) (e : ErrCode) (d : Word) (s : State) (k : Nat) :
    WritesOnlyItsOwn w s (latch e d { s with draws := s.draws + k }) where
  key h := by simp at h
  b h := absurd rfl h
  input h := absurd rfl h
  output h := absurd rfl h
  bufBytes := rfl
  inputs := rfl
  draws := Nat.le_add_right _ _

theorem acceptWord_writesOnlyItsOwn {w : CommandWord} {s t : State} (ht : acceptWord w s = .next t) :
    WritesOnlyItsOwn w s t := by
  have same (e : ErrCode) (d : Word) := writesOnlyItsOwn_latch_draws w e d s 0
  obtain ⟨u, hu, hcases⟩ := acceptWord_effect w s
  cases ht.symm.trans hu
  obtain ⟨-, rfl⟩ | ⟨i, hi, ⟨e, -, rfl⟩ | ⟨v, rfl, hodd, rfl⟩ | ⟨v, rfl, rfl⟩ | ⟨n, f, hn, hle, rfl⟩ | ⟨j, d, rfl, hj, rfl⟩ |
    ⟨d, k, rfl⟩⟩ := hcases
  · exact same .illegal 0#32
  · exact same e 0#32
  · exact { same .ok 0#32 with key := fun _ => ⟨v, hi, hodd, rfl⟩ }
  · exact { same .ok 0#32 with b := fun _ => ⟨v, hi⟩ }
  · have hpass : decode w = .ok (.enc n) ∨ decode w = .ok (.dec n) := by rcases hn with rfl | rfl <;> simp [hi]
    exact { writesOnlyItsOwn_latch_draws w .ok (lenResult n) s (unwrittenBelow s n.toNat) with
      output := fun _ => ⟨n, hpass, hle⟩ }
  · exact { same .ok 0#32 with input := fun _ => ⟨j, d, hi, hj⟩ }
  · exact writesOnlyItsOwn_latch_draws w .ok d s k

/-- KEY_USABLE is read off A_INV (10_state.md R25). -/
theorem keyUsable_congr {s t : State} (h : t.aInv = s.aInv) : keyUsable t = keyUsable s := by
  rw [keyUsable, keyUsable, h]

/-- Settles O39: a step changes nothing, is a reset, or accepts a word that writes only its own. -/
theorem eachStateItemHasItsWriters : Obligations.EachStateItemHasItsWriters := by
  intro s t ht
  rcases step_cases ht with ⟨hin, rfl⟩ | ⟨hres, rfl⟩ | ⟨w, rest, hin, haccept⟩
  · simp [hin]
  · exact ⟨fun _ => .inl hres, fun _ => .inl hres, fun _ => .inl hres, fun _ => .inl hres, rfl, rfl, le_rfl⟩
  · have hw := acceptWord_writesOnlyItsOwn haccept
    refine ⟨fun h => .inr ?_, fun h => .inr ?_, fun h => .inr ?_, fun h => .inr ?_, hw.bufBytes,
      hw.inputs.trans (congrArg List.tail hin).symm, hw.draws⟩
    · have hkey : t.a ≠ s.a ∨ t.aInv ≠ s.aInv := h.imp_right fun hflag => hflag.elim id (mt keyUsable_congr)
      obtain ⟨v, hv, hodd, ha⟩ := hw.key hkey
      exact ⟨w, rest, _, hin, hv, v, rfl, hodd, ha⟩
    · obtain ⟨v, hv⟩ := hw.b h
      exact ⟨w, rest, _, hin, hv, v, rfl⟩
    · obtain ⟨j, d, hwrin, hj⟩ := hw.input h
      exact ⟨w, rest, _, hin, hwrin, j, d, rfl, hj⟩
    · obtain ⟨n, hn | hn, hle⟩ := hw.output h
      · exact ⟨w, rest, _, hin, hn, n, .inl rfl, hle⟩
      · exact ⟨w, rest, _, hin, hn, n, .inr rfl, hle⟩

end Sys2Proof.StepProofs

/-! PROOFS. One byte of a buffer (spec 43_access.md R140 to R142; 20_memory.md R47, R48, R52): the words of format X, the outcomes
of RDIN and RDOUT, and the statements about reads and about read after write. -/

namespace Sys2Proof.ByteAccessProofs

open Sys2Proof.Machine
open Sys2Proof.Claims
open Sys2Proof.AffineTransformProofs
open Sys2Proof.AccessProofs
open Sys2Proof.EncodingInverseProofs

/-- R67 for the two opcodes of format X. -/
theorem strictReserved_formatX {op : BitVec 8} (hX : op = 0x08#8 ∨ op = 0x09#8) :
    strictReserved op (fun w => w.extractLsb 31 24 ≠ 0#8 ∨ w.extractLsb 7 0 ≠ 0#8) :=
  strictReserved_of_illegal fun _ hop hres => .inr (.inr (.inr (.inr (.inr (.inl ⟨hop.symm ▸ hX, hres⟩)))))

/-! The outcomes of a read, of either buffer. -/

theorem readBuffer_of_outside {i : BitVec 16} {s : State} (sp : Space) (h : s.bufBytes ≤ i.toNat) :
    readBuffer sp i s = .next (latch .range 0#32 s) := by
  simp [readBuffer, indexInBuffer, h, raiseErr_eq]

theorem readBuffer_of_written {sp : Space} {i : BitVec 16} {s : State} {v : Byte} (h : i.toNat < s.bufBytes)
    (hv : (s.buffer sp).lookup i.toNat = some v) : readBuffer sp i s = .next (latch .ok (v.setWidth 32) s) := by
  simp [readBuffer, indexInBuffer, h, readByte_of_written hv, respond_eq, byteResult]

theorem readBuffer_of_unwritten {sp : Space} {i : BitVec 16} {s : State} (h : i.toNat < s.bufBytes)
    (hv : (s.buffer sp).lookup i.toNat = none) :
    readBuffer sp i s = .next (latch .ok ((Config.freeByte s.draws).setWidth 32) { s with draws := s.draws + 1 }) := by
  simp [readBuffer, indexInBuffer, h, readByte_of_unwritten hv, respond_eq, byteResult]

/-- Settles O27: the range check and whether IN[INDEX] is written select the outcome. -/
theorem rdinReadsOneByteOfIn : Obligations.RdinReadsOneByteOfIn := by
  refine ⟨fun i => ?_, fun i s h => ?_, fun i s v h hv => ?_, fun i s h hv => ?_, ?_⟩
  · exact decodeInvertsEncode (.rdin i)
  · exact readBuffer_of_outside .input h
  · exact readBuffer_of_written (sp := .input) h hv
  · exact readBuffer_of_unwritten (sp := .input) h hv
  · exact strictReserved_formatX (.inl rfl)

/-- Settles O28: the range check and whether OUT[INDEX] is written select the outcome. -/
theorem rdoutReadsOneByteOfOut : Obligations.RdoutReadsOneByteOfOut := by
  refine ⟨fun i => ?_, fun i s h => ?_, fun i s v h hv => ?_, fun i s h hv => ?_, ?_⟩
  · exact decodeInvertsEncode (.rdout i)
  · exact readBuffer_of_outside .output h
  · exact readBuffer_of_written (sp := .output) h hv
  · exact readBuffer_of_unwritten (sp := .output) h hv
  · exact strictReserved_formatX (.inr rfl)

/-! Read after write (20_memory.md R47, R48). -/

theorem store_store_same (m : Memory) (i : Nat) (v : Byte) : (m.store i v).store i v = m.store i v := by
  induction m with
  | nil => simp [Memory.store]
  | cons c m ih =>
    obtain ⟨k, u⟩ := c
    rcases Nat.lt_trichotomy i k with hlt | rfl | hgt
    · simp [Memory.store, hlt]
    · simp [Memory.store]
    · simp [Memory.store, Nat.not_lt_of_gt hgt, Nat.ne_of_gt hgt, ih]

/-- Settles O33: IN becomes `store`, which reads back and which the same write leaves as it is. -/
theorem writtenByteReadsBack : Obligations.WrittenByteReadsBack := by
  intro s i d h
  refine ⟨_, exec_wrin_of_inside h d, ?_, ?_, rfl, fun j hj => lookup_store_other _ _ hj⟩
  · exact readBuffer_of_written (sp := .input) h (lookup_store_same _ _ _)
  · rw [exec_wrin_of_inside (by exact h) d]
    simp only [latch_inBuf, store_store_same]
    rfl

/-! Reads change the latch and the draw counter only (20_memory.md R47, R52). -/

/-- The six read commands. -/
def IsRead (i : Instr) : Prop := (∃ j, i = .rdin j) ∨ (∃ j, i = .rdout j) ∨ i = .rda ∨ i = .rdb ∨ i = .rdinv ∨ i = .rdstat

/-- A read of a buffer draws nothing and only responds, or draws once. -/
theorem readBuffer_latches (sp : Space) (j : BitVec 16) (s : State) :
    (∃ e d, readBuffer sp j s = .next (latch e d s)) ∨
      ∃ e d, readBuffer sp j s = .next (latch e d { s with draws := s.draws + 1 }) := by
  rcases readBuffer_cases sp j s with ⟨-, h⟩ | ⟨-, v, -, h⟩ | ⟨-, -, h⟩
  · exact .inl ⟨_, _, h⟩
  · exact .inl ⟨_, _, h⟩
  · exact .inr ⟨_, _, h⟩

theorem exec_read_latches {i : Instr} (hi : IsRead i) (s : State) :
    (∃ e d, exec i s = .next (latch e d s)) ∨ ∃ e d, exec i s = .next (latch e d { s with draws := s.draws + 1 }) := by
  rcases hi with ⟨j, rfl⟩ | ⟨j, rfl⟩ | rfl | rfl | rfl | rfl
  · exact readBuffer_latches .input j s
  · exact readBuffer_latches .output j s
  · exact .inl ⟨_, _, exec_rda s⟩
  · exact .inl ⟨_, _, exec_rdb s⟩
  · exact .inl ⟨_, _, exec_rdinv s⟩
  · exact .inl ⟨_, _, exec_rdstat s⟩

/-- No command reads the response before it. -/
theorem exec_latch (i : Instr) (e : ErrCode) (d : Word) (s : State) : exec i (latch e d s) = exec i s :=
  exec_withLatch i true e.code d s

/-- Settles O34: a read that only responds leaves what the same read sees. -/
theorem readsHaveNoSideEffect : Obligations.ReadsHaveNoSideEffect := by
  intro s i hi
  rcases exec_read_latches hi s with ⟨e, d, h⟩ | ⟨e, d, h⟩
  · exact ⟨_, h, rfl, fun _ => (exec_latch i e d s).trans h⟩
  · exact ⟨_, h, rfl, fun hdraws => absurd hdraws (Nat.succ_ne_self s.draws)⟩

/-! Two reads of one unwritten byte (20_memory.md R52). -/

theorem readBuffer_unwritten_twice {sp : Space} {i : BitVec 16} {s : State} (h : i.toNat < s.bufBytes)
    (hv : (s.buffer sp).lookup i.toNat = none) :
    ∃ t u, readBuffer sp i s = .next t ∧ readBuffer sp i t = .next u ∧
      t.rspData = (Config.freeByte s.draws).setWidth 32 ∧ u.rspData = (Config.freeByte (s.draws + 1)).setWidth 32 ∧
      t.buffer sp = s.buffer sp ∧ u.buffer sp = s.buffer sp := by
  cases sp <;> exact ⟨_, _, readBuffer_of_unwritten h hv, readBuffer_of_unwritten (by exact h) hv, rfl, rfl, rfl, rfl⟩

/-- Settles O35: the first read advances the draw counter and does not write the byte. -/
theorem unwrittenReadsAreSeparateDraws : Obligations.UnwrittenReadsAreSeparateDraws := fun _ _ h =>
  ⟨readBuffer_unwritten_twice (sp := .input) h, readBuffer_unwritten_twice (sp := .output) h⟩

end Sys2Proof.ByteAccessProofs

/-! PROOFS. The whole-buffer passes (spec 42_buffer_passes.md R120 to R123): the outcomes of ENC and DEC, the host's copy of OUT
into IN, and the statements about the lanes. -/

namespace Sys2Proof.BufferPassesProofs

open Sys2Proof.Machine
open Sys2Proof.Claims
open Sys2Proof.AffineTransformProofs
open Sys2Proof.AccessProofs
open Sys2Proof.EncodingInverseProofs
open Sys2Proof.ExceptionsProofs
open Sys2Proof.ByteAccessProofs

/-- R67 for the two opcodes of format L. -/
theorem strictReserved_formatL {op : BitVec 8} (hL : op = 0x05#8 ∨ op = 0x06#8) :
    strictReserved op (fun w => w.extractLsb 31 16 ≠ 0#16) :=
  strictReserved_of_illegal fun _ hop hres => .inr (.inr (.inr (.inl ⟨hop.symm ▸ hL, hres⟩)))

/-! The outcomes of the passes. -/

/-- The state after a pass of `n` lanes: OUT, the draw counter, and the response (OK, n). -/
def afterPass (f : Byte → Byte) (n : BitVec 16) (s : State) : State :=
  latch .ok (lenResult n) { s with outBuf := passOut f s n.toNat, draws := s.draws + unwrittenBelow s n.toNat }

theorem exec_enc_of_outside {n : BitVec 16} {s : State} (h : s.bufBytes < n.toNat) :
    exec (.enc n) s = .next (latch .range 0#32 s) :=
  if_neg (mt (lenInBuffer_iff n s).mp (Nat.not_le_of_gt h))

theorem exec_enc_of_unusable {n : BitVec 16} {s : State} (h : n.toNat ≤ s.bufBytes) (hkey : s.aInv = 0xFFFFFFFF#32) :
    exec (.enc n) s = .next (latch .keyUnusable 0#32 s) :=
  (if_pos ((lenInBuffer_iff n s).mpr h)).trans (if_neg fun hu => (keyUsable_iff s).mp hu hkey)

theorem exec_enc_of_usable {n : BitVec 16} {s : State} (h : n.toNat ≤ s.bufBytes) (hkey : s.aInv ≠ 0xFFFFFFFF#32) :
    exec (.enc n) s = .next (afterPass (affineEnc s.a s.b) n s) := by
  simp only [exec, execEnc, (lenInBuffer_iff n s).mpr h, (keyUsable_iff s).mpr hkey, if_true, respond_eq, passLanes_eq]
  rfl

theorem exec_dec_of_outside {n : BitVec 16} {s : State} (h : s.bufBytes < n.toNat) :
    exec (.dec n) s = .next (latch .range 0#32 s) :=
  if_neg (mt (lenInBuffer_iff n s).mp (Nat.not_le_of_gt h))

theorem exec_dec_of_inside {n : BitVec 16} {s : State} (h : n.toNat ≤ s.bufBytes) :
    exec (.dec n) s = .next (afterPass (affineDec s.aInv s.b) n s) := by
  simp only [exec, execDec, (lenInBuffer_iff n s).mpr h, if_true, respond_eq, passLanes_eq]
  rfl

/-! OUT after a pass, lane by lane. -/

theorem lookup_passOut_of_lt (f : Byte → Byte) (s : State) {n i : Nat} (h : i < n) :
    (passOut f s n).lookup i = some (f (laneByte s i)) := (lookup_passOut f s n i).trans (if_pos h)

theorem lookup_passOut_of_ge (f : Byte → Byte) (s : State) {n i : Nat} (h : n ≤ i) :
    (passOut f s n).lookup i = s.outBuf.lookup i := (lookup_passOut f s n i).trans (if_neg (Nat.not_lt_of_ge h))

theorem laneByte_of_written {s : State} {i : Nat} {v : Byte} (h : s.inBuf.lookup i = some v) : laneByte s i = v := by
  simp [laneByte, h]

/-- Settles O22: the length check, then the key check, select the outcome; a pass writes AffineEnc of each lane's byte. -/
theorem encEncryptsTheLanes : Obligations.EncEncryptsTheLanes := by
  refine ⟨fun n => ?_, fun n s h => ?_, fun n s h hkey => ?_, fun n s h hkey =>
    ⟨passOut (affineEnc s.a s.b) s n.toNat, ?_, fun i hi => ⟨affineEnc s.a s.b (laneByte s i), ?_, ?_⟩, fun i hi => ?_⟩, ?_⟩
  · exact decode_encode_enc n
  · exact exec_enc_of_outside h
  · exact exec_enc_of_unusable h hkey
  · exact exec_enc_of_usable h hkey
  · exact lookup_passOut_of_lt _ s hi
  · exact toNat_byteOfInt _
  · exact lookup_passOut_of_ge _ s hi
  · exact strictReserved_formatL (.inl rfl)

/-- Settles O23: the length check selects the outcome; a pass writes AffineDec of each lane's byte. -/
theorem decDecryptsTheLanes : Obligations.DecDecryptsTheLanes := by
  refine ⟨fun n => ?_, fun n s h => ?_, fun n s h =>
    ⟨passOut (affineDec s.aInv s.b) s n.toNat, ?_, fun i hi => ⟨affineDec s.aInv s.b (laneByte s i), ?_, ?_⟩, fun i hi => ?_⟩, ?_⟩
  · exact decodeInvertsEncode (.dec n)
  · exact exec_dec_of_outside h
  · exact exec_dec_of_inside h
  · exact lookup_passOut_of_lt _ s hi
  · exact toNat_byteOfInt _
  · exact lookup_passOut_of_ge _ s hi
  · exact strictReserved_formatL (.inr rfl)

/-! A lane of a pass that succeeded (R122). -/

theorem lookup_outBuf_of_enc {n : BitVec 16} {s t : State} {i : Nat} {v : Byte} (ht : exec (.enc n) s = .next t)
    (hok : t.rspErr = 0#4) (hi : i < n.toNat) (hv : s.inBuf.lookup i = some v) :
    t.outBuf.lookup i = some (affineEnc s.a s.b v) := by
  rcases Nat.lt_or_ge s.bufBytes n.toNat with hlen | hlen
  · cases (exec_enc_of_outside hlen).symm.trans ht
    exact absurd hok (by decide : ErrCode.range.code ≠ 0#4)
  · by_cases hkey : s.aInv = 0xFFFFFFFF#32
    · cases (exec_enc_of_unusable hlen hkey).symm.trans ht
      exact absurd hok (by decide : ErrCode.keyUnusable.code ≠ 0#4)
    · cases (exec_enc_of_usable hlen hkey).symm.trans ht
      exact laneByte_of_written hv ▸ lookup_passOut_of_lt _ s hi

theorem lookup_outBuf_of_dec {n : BitVec 16} {s t : State} {i : Nat} {v : Byte} (ht : exec (.dec n) s = .next t)
    (hok : t.rspErr = 0#4) (hi : i < n.toNat) (hv : s.inBuf.lookup i = some v) :
    t.outBuf.lookup i = some (affineDec s.aInv s.b v) := by
  rcases Nat.lt_or_ge s.bufBytes n.toNat with hlen | hlen
  · cases (exec_dec_of_outside hlen).symm.trans ht
    exact absurd hok (by decide : ErrCode.range.code ≠ 0#4)
  · cases (exec_dec_of_inside hlen).symm.trans ht
    exact laneByte_of_written hv ▸ lookup_passOut_of_lt _ s hi

/-- Settles O24: each lane is a function of the keys applied to its byte. -/
theorem lanesDependOnTheirByteAndTheKeysOnly : Obligations.LanesDependOnTheirByteAndTheKeysOnly := by
  rintro s s' t t' n n' i i' v ha hb hinv hi hi' hv hv' (⟨ht, ht'⟩ | ⟨ht, ht'⟩) hok hok'
  · have h' := lookup_outBuf_of_enc ht' hok' hi' hv'
    rw [← ha, ← hb] at h'
    exact ⟨_, lookup_outBuf_of_enc ht hok hi hv, h'⟩
  · have h' := lookup_outBuf_of_dec ht' hok' hi' hv'
    rw [← hinv, ← hb] at h'
    exact ⟨_, lookup_outBuf_of_dec ht hok hi hv, h'⟩

/-! The host's copy of OUT into IN (R123). -/

/-- After the copy of `n` bytes `g`: IN holds them, and nothing but IN and the latch differs from before. -/
def CopiedBelow (g : Nat → Byte) (n : Nat) (s t : State) : Prop :=
  ∃ m v e d, t = withLatch v e d { s with inBuf := m } ∧ ∀ i, i < n → m.lookup i = some (g i)

/-- One index of the copy: RDOUT answers the byte zero-extended, and WRIN stores its low byte. -/
theorem copy_one_byte {n : Nat} {s : State} {v : Byte} (hn : n < s.bufBytes) (hindex : n < 65536)
    (hv : s.outBuf.lookup n = some v) :
    ∃ t, exec (.rdout (BitVec.ofNat 16 n)) s = .next t ∧
      exec (.wrin (BitVec.ofNat 16 n) (t.rspData.extractLsb 7 0)) t =
        .next (latch .ok 0#32 { s with inBuf := s.inBuf.store n v }) := by
  have hnat : (BitVec.ofNat 16 n).toNat = n := Nat.mod_eq_of_lt hindex
  have hlow : (v.setWidth 32).extractLsb 7 0 = v := lowByte_setWidth v
  have hread : exec (.rdout (BitVec.ofNat 16 n)) s = .next (latch .ok (v.setWidth 32) s) :=
    readBuffer_of_written (sp := .output) (by rwa [hnat]) (by rwa [hnat])
  refine ⟨_, hread, ?_⟩
  rw [latch_rspData, hlow, exec_latch, exec_wrin_of_inside (by rwa [hnat]), hnat]

theorem copyOutToIn_succ {n : Nat} {s t u v : State} (ht : copyOutToIn n s = .next t)
    (hu : exec (.rdout (BitVec.ofNat 16 n)) t = .next u)
    (hv : exec (.wrin (BitVec.ofNat 16 n) (u.rspData.extractLsb 7 0)) u = .next v) : copyOutToIn (n + 1) s = .next v := by
  simp only [copyOutToIn, ht, hu, hv]

theorem copyOutToIn_copies {g : Nat → Byte} {s : State} {n : Nat} (hsize : n ≤ s.bufBytes) (hindex : n ≤ 65536)
    (hout : ∀ i, i < n → s.outBuf.lookup i = some (g i)) : ∃ t, copyOutToIn n s = .next t ∧ CopiedBelow g n s t := by
  induction n with
  | zero => exact ⟨s, rfl, s.inBuf, s.rspValid, s.rspErr, s.rspData, rfl, fun i hi => absurd hi i.not_lt_zero⟩
  | succ n ih =>
    obtain ⟨t, ht, m, v, e, d, rfl, hm⟩ := ih (by omega) (by omega) fun i hi => hout i (by omega)
    obtain ⟨u, hread, hwrite⟩ := copy_one_byte (s := withLatch v e d { s with inBuf := m }) hsize hindex (hout n n.lt_succ_self)
    refine ⟨_, copyOutToIn_succ ht hread hwrite, m.store n (g n), true, 0#4, 0#32, rfl, fun i hi => ?_⟩
    rw [lookup_store]
    split_ifs with h
    · rw [h]
    · exact hm i (by omega)

/-- Settles O25: DEC reads AffineEnc of the lane's byte where ENC wrote it, under the same keys. -/
theorem bufferRoundTrip : Obligations.BufferRoundTrip := by
  intro s n hs hkey hlen
  have henc := exec_enc_of_usable hlen ((keyUsable_iff s).mp hkey)
  obtain ⟨u, hcopy, m, v, e, d, rfl, hm⟩ := copyOutToIn_copies (s := afterPass (affineEnc s.a s.b) n s)
    (g := fun i => affineEnc s.a s.b (laneByte s i)) (n := n.toNat) hlen n.isLt.le fun i hi => lookup_passOut_of_lt _ s hi
  refine ⟨_, _, _, henc, hcopy, exec_dec_of_inside (by exact hlen), rfl, fun i hi => ?_⟩
  refine (lookup_passOut_of_lt _ _ hi).trans (congrArg some ?_)
  rw [laneByte_of_written (by exact hm i hi)]
  exact hs.inverse ▸ affineDec_affineEnc hs.odd s.b (laneByte s i)

end Sys2Proof.BufferPassesProofs

/-! PROOFS. Runs (spec 70_reset_and_hazards.md R185, R186, R190; 41_affine_transform.md R105): the responses of a command
sequence, and the keys along it. -/

namespace Sys2Proof.RunProofs

open Sys2Proof.Machine
open Sys2Proof.Claims
open Sys2Proof.EncodingProofs
open Sys2Proof.AffineTransformProofs
open Sys2Proof.EncodingInverseProofs
open Sys2Proof.StepProofs

/-! Runs, word by word. -/

theorem runCommands_cons {w : CommandWord} {ws : List CommandWord} {s t u : State} {r : Response} {rs : List Response}
    (ht : acceptWord w s = .next t) (hr : readResponse t = .ok (some r)) (hws : runCommands ws t = .next (rs, u)) :
    runCommands (w :: ws) s = .next (r :: rs, u) := by
  simp [runCommands, ht, hr, hws]

/-- A word completes with a response that can be read (R191). -/
theorem acceptWord_responds (w : CommandWord) (s : State) :
    ∃ t r, acceptWord w s = .next t ∧ readResponse t = .ok (some r) := by
  obtain ⟨e, d, u, h⟩ := acceptWord_exists_latch w s
  exact ⟨_, _, h, readResponse_latch e d u⟩

theorem runCommands_completes (ws : List CommandWord) (s : State) :
    ∃ rs t, runCommands ws s = .next (rs, t) ∧ rs.length = ws.length := by
  induction ws generalizing s with
  | nil => exact ⟨[], s, rfl, rfl⟩
  | cons w ws ih =>
    obtain ⟨t, r, ht, hr⟩ := acceptWord_responds w s
    obtain ⟨rs, u, hu, hlen⟩ := ih t
    exact ⟨r :: rs, u, runCommands_cons ht hr hu, congrArg (· + 1) hlen⟩

/-- A run that ends has accepted its first word and run the others from there. -/
theorem runCommands_cons_inv {w : CommandWord} {ws : List CommandWord} {s u : State} {rs : List Response}
    (h : runCommands (w :: ws) s = .next (rs, u)) :
    ∃ t r qs, acceptWord w s = .next t ∧ readResponse t = .ok (some r) ∧ runCommands ws t = .next (qs, u) ∧ rs = r :: qs := by
  obtain ⟨t, r, ht, hr⟩ := acceptWord_responds w s
  obtain ⟨qs, v, hv, -⟩ := runCommands_completes ws t
  cases (runCommands_cons ht hr hv).symm.trans h
  exact ⟨t, r, qs, ht, hr, hv, rfl⟩

theorem runCommands_append {ws vs : List CommandWord} {s t u : State} {rs qs : List Response}
    (hws : runCommands ws s = .next (rs, t)) (hvs : runCommands vs t = .next (qs, u)) :
    runCommands (ws ++ vs) s = .next (rs ++ qs, u) := by
  induction ws generalizing s rs with
  | nil =>
    cases hws
    exact hvs
  | cons w ws ih =>
    obtain ⟨s', r, rs', hs', hr, hrun, rfl⟩ := runCommands_cons_inv hws
    exact runCommands_cons hs' hr (ih hrun)

/-- Settles O40: by induction on the words; each leaves a response that can be read. -/
theorem runsAnswerOneResponsePerCommand : Obligations.RunsAnswerOneResponsePerCommand :=
  ⟨runCommands_completes, fun _ => rfl, fun _ _ _ _ ht hr => runCommands_cons ht hr rfl,
    fun _ _ _ _ _ _ _ => runCommands_append⟩

/-! The keys along a run (R186). -/

/-- A, B and A_INV are the same. -/
def SameKeys (s t : State) : Prop := t.a = s.a ∧ t.b = s.b ∧ t.aInv = s.aInv

theorem SameKeys.trans {s t u : State} : SameKeys s t → SameKeys t u → SameKeys s u :=
  fun ⟨ha, hb, hinv⟩ ⟨ha', hb', hinv'⟩ => ⟨ha'.trans ha, hb'.trans hb, hinv'.trans hinv⟩

theorem not_seta_odd_of_keepsKeys {w : CommandWord} {v : BitVec 32} (hk : keepsKeys w) (hw : decode w = .ok (.seta v)) :
    v.getLsbD 0 = false := by
  obtain ⟨hop, rfl⟩ := decode_eq_ok_iff.mp hw
  simpa [valueField] using hk.2 hop

theorem acceptWord_keeps_keys {w : CommandWord} {s t : State} (hk : keepsKeys w) (ht : acceptWord w s = .next t) :
    SameKeys s t := by
  have hw := acceptWord_writesOnlyItsOwn ht
  have hkey : ¬(t.a ≠ s.a ∨ t.aInv ≠ s.aInv) := fun h => by
    obtain ⟨v, hv, hodd, -⟩ := hw.key h
    exact Bool.noConfusion (hodd.symm.trans (not_seta_odd_of_keepsKeys hk hv))
  have hb : ¬t.b ≠ s.b := fun h => by
    obtain ⟨v, hv⟩ := hw.b h
    exact hk.1 (decode_eq_ok_iff.mp hv).1
  exact ⟨not_not.mp fun h => hkey (.inl h), not_not.mp hb, not_not.mp fun h => hkey (.inr h)⟩

theorem runCommands_keeps_keys {ws : List CommandWord} {s t : State} {rs : List Response} (hk : ∀ w ∈ ws, keepsKeys w)
    (h : runCommands ws s = .next (rs, t)) : SameKeys s t := by
  induction ws generalizing s rs with
  | nil =>
    cases h
    exact ⟨rfl, rfl, rfl⟩
  | cons w ws ih =>
    obtain ⟨s', r, qs, hs', -, hrun, rfl⟩ := runCommands_cons_inv h
    obtain ⟨hkw, hkws⟩ := List.forall_mem_cons.mp hk
    exact (acceptWord_keeps_keys hkw hs').trans (ih hkws hrun)

theorem acceptWord_encode (i : Instr) (s : State) : acceptWord (encode i) s = exec i s :=
  acceptWord_of_ok (decodeInvertsEncode i) s

/-- Settles O21: DECB finds the keys of ENCB, whose A_INV is Scan's result for the odd A. -/
theorem byteRoundTripThroughCommands : Obligations.ByteRoundTripThroughCommands := by
  intro s p ws hs hkey hws
  have hencb := exec_encb_of_usable ((keyUsable_iff s).mp hkey) p
  obtain ⟨rs, t, hrun, hlen⟩ := runCommands_completes ws (latch .ok (byteResult (affineEnc s.a s.b p)) s)
  obtain ⟨-, hb, hinv⟩ := runCommands_keeps_keys hws hrun
  have hdec : affineDec t.aInv t.b (affineEnc s.a s.b p) = p := by
    rw [hinv, hb, latch_aInv, latch_b, hs.inverse, affineDec_affineEnc hs.odd]
  refine ⟨affineEnc s.a s.b p, rs, t, latch .ok (byteResult p) t, ?_, hlen, ?_⟩
  · exact runCommands_cons ((acceptWord_encode _ s).trans hencb) (readResponse_latch _ _ _) hrun
  · have hdecb := exec_decb (affineEnc s.a s.b p) t
    rw [hdec] at hdecb
    exact runCommands_cons ((acceptWord_encode _ t).trans hdecb) (readResponse_latch _ _ _) rfl

end Sys2Proof.RunProofs

/-! PROOFS. The ports (spec 30_encoding.md R60, R61; 10_state.md R25, R29; 60_exceptions.md R179; 70_reset_and_hazards.md R180 to
R182, R189): one edge in each phase, sequences of edges in each phase, and the statements about them. -/

namespace Sys2Proof.PortsProofs

open Sys2Proof.Machine
open Sys2Proof.StepProofs

/-! One edge, by the phase of the block. -/

theorem clockEdge_reset {k : Block} {p : Pins} (hp : p.rstN = false) :
    clockEdge p k = .next { core := pulseReset k.core, phase := wakePhase (Config.wakeDelay k.edges), edges := k.edges + 1 } := by
  simp [clockEdge, hp]

theorem clockEdge_neverReset {k : Block} {p : Pins} (hk : k.phase = .neverReset) (hp : p.rstN = true) :
    clockEdge p k = .refused .neverReset := by
  simp [clockEdge, hp, hk]

theorem clockEdge_waking {k : Block} {p : Pins} {n : Nat} (hk : k.phase = .waking n) (hp : p.rstN = true) :
    clockEdge p k = .next { k with phase := wakePhase n, edges := k.edges + 1 } := by
  simp [clockEdge, hp, hk]

theorem clockEdge_idle {k : Block} {p : Pins} (hk : k.phase = .ready) (hp : p.rstN = true) (hv : p.cmdValid = false) :
    clockEdge p k = .next { k with edges := k.edges + 1 } := by
  simp [clockEdge, hp, hk, hv]

theorem clockEdge_accept {k : Block} {p : Pins} (hk : k.phase = .ready) (hp : p.rstN = true) (hv : p.cmdValid = true) :
    clockEdge p k = .next (acceptEdge p.cmdWord k) := by
  simp [clockEdge, hp, hk, hv]

theorem clockEdge_busy {k : Block} {p : Pins} {w : CommandWord} {n : Nat} (hk : k.phase = .busy w (n + 1)) (hp : p.rstN = true) :
    clockEdge p k = .next { k with phase := .busy w n, edges := k.edges + 1 } := by
  simp [clockEdge, hp, hk]

theorem clockEdge_complete {k : Block} {p : Pins} {w : CommandWord} {t : State} (hk : k.phase = .busy w 0) (hp : p.rstN = true)
    (ht : acceptWord w k.core = .next t) :
    clockEdge p k = .next { core := t, phase := .ready, edges := k.edges + 1 } := by
  simp [clockEdge, hp, hk, completeEdge, ht]

/-- The edges after the first go on from the block it gives. -/
theorem clockEdges_cons {p : Pins} {ps : List Pins} {k k' : Block} (h : clockEdge p k = .next k') :
    clockEdges (p :: ps) k = clockEdges ps k' := by
  simp [clockEdges, h]

/-- The outputs of a block that has been reset. -/
theorem portOutputs_of_wasReset {k : Block} (hk : k.phase ≠ .neverReset) (r : Bool) : portOutputs r k = .ok
    { cmdReady := r && decide (k.phase = .ready)
      rspValid := r && k.core.rspValid
      rspErr := if (r && k.core.rspValid) = true then k.core.rspErr else Config.freeRspErr k.edges
      rspData := if (r && k.core.rspValid) = true then k.core.rspData else Config.freeRspData k.edges
      keyUsable := keyUsable k.core } := if_neg hk

theorem wakePhase_ne_neverReset (n : Nat) : wakePhase n ≠ .neverReset := by
  cases n <;> simp [wakePhase]

/-! Edges while the block waits. -/

/-- Where each edge with such pins moves the phase one place down `phase` and changes nothing else, so do all of them. -/
theorem clockEdges_countdown {phase : Nat → Phase} {pins : Pins → Prop}
    (hedge : ∀ k p n, k.phase = phase (n + 1) → pins p → clockEdge p k = .next { k with phase := phase n, edges := k.edges + 1 })
    {ps : List Pins} {k : Block} {n : Nat} (hk : k.phase = phase (n + ps.length)) (hps : ∀ p ∈ ps, pins p) :
    clockEdges ps k = .next { k with phase := phase n, edges := k.edges + ps.length } := by
  induction ps generalizing k with
  | nil =>
    have hn : k.phase = phase n := hk
    simp [clockEdges, ← hn]
  | cons p ps ih =>
    obtain ⟨hp, hrest⟩ := List.forall_mem_cons.mp hps
    rw [clockEdges_cons (hedge k p (n + ps.length) hk hp), ih rfl hrest]
    simp [Nat.add_comm, Nat.add_left_comm]

/-- A ready block with no command presented (60_exceptions.md R179). -/
theorem clockEdges_idle {qs : List Pins} {k : Block} (hk : k.phase = .ready)
    (hqs : ∀ q ∈ qs, q.rstN = true ∧ q.cmdValid = false) :
    clockEdges qs k = .next { k with edges := k.edges + qs.length } := by
  have h := clockEdges_countdown (phase := fun _ => .ready) (n := 0)
    (fun k p n hk hp => by simpa only [hk] using clockEdge_idle hk hp.1 hp.2) hk hqs
  simpa only [hk] using h

/-- The delay after a reset passes, whatever the host drives (R180). -/
theorem clockEdges_wake {ps : List Pins} {k : Block} (hk : k.phase = wakePhase ps.length) (hps : ∀ p ∈ ps, p.rstN = true) :
    clockEdges ps k = .next { k with phase := .ready, edges := k.edges + ps.length } :=
  clockEdges_countdown (phase := wakePhase) (n := 0) (fun _ _ _ => clockEdge_waking) (by rwa [Nat.zero_add]) hps

/-- A command in flight waits out its latency, whatever the host drives (R61). -/
theorem clockEdges_busy {ps : List Pins} {k : Block} {w : CommandWord} {n : Nat} (hk : k.phase = .busy w (n + ps.length))
    (hps : ∀ p ∈ ps, p.rstN = true) :
    clockEdges ps k = .next { k with phase := .busy w n, edges := k.edges + ps.length } :=
  clockEdges_countdown (phase := .busy w) (fun _ _ _ => clockEdge_busy) hk hps

/-- The last edge of the latency completes the command (R61). -/
theorem clockEdges_complete {ps : List Pins} {k : Block} {w : CommandWord} {n : Nat} {t : State} (hk : k.phase = .busy w n)
    (hlen : ps.length = n + 1) (hps : ∀ p ∈ ps, p.rstN = true) (ht : acceptWord w k.core = .next t) :
    clockEdges ps k = .next { core := t, phase := .ready, edges := k.edges + ps.length } := by
  induction n generalizing ps k with
  | zero =>
    obtain ⟨p, rfl⟩ := List.length_eq_one_iff.mp hlen
    exact clockEdges_cons (clockEdge_complete hk (hps p (List.mem_singleton_self p)) ht)
  | succ n ih =>
    obtain ⟨p, ps, rfl⟩ := List.exists_cons_of_length_eq_add_one hlen
    obtain ⟨hp, hrest⟩ := List.forall_mem_cons.mp hps
    rw [clockEdges_cons (clockEdge_busy hk hp),
      ih (k := { k with phase := .busy w n, edges := k.edges + 1 }) rfl (Nat.succ.inj hlen) hrest ht]
    simp [Nat.add_comm, Nat.add_left_comm]

/-! The statements. -/

/-- Settles O8: in the named cases an edge moves the phase and the edge count only. -/
theorem blockWaitsBetweenCommands : Obligations.BlockWaitsBetweenCommands := by
  refine ⟨fun s => step_of_nil, fun k p => clockEdge_idle, fun k hk => ?_, fun k k' p hp hbusy hready h => ?_⟩
  · exact ⟨_, portOutputs_of_wasReset (by simp [hk]) true, by simp [hk]⟩
  · cases hk : k.phase with
    | neverReset => cases (clockEdge_neverReset hk hp).symm.trans h
    | waking n =>
      cases (clockEdge_waking hk hp).symm.trans h
      rfl
    | ready =>
      have hv : p.cmdValid = false := Bool.eq_false_of_not_eq_true fun hv => hready ⟨hk, hv⟩
      cases (clockEdge_idle hk hp hv).symm.trans h
      rfl
    | busy w n =>
      cases n with
      | zero => exact absurd hk (hbusy w)
      | succ n =>
        cases (clockEdge_busy hk hp).symm.trans h
        rfl

/-- Settles O45: after the acceptance the latency counts down; its last edge is `acceptWord`, which does not see that RSP_VALID
was cleared. -/
theorem handshakeRefinesTheStep : Obligations.HandshakeRefinesTheStep := by
  intro k w ps hk hps
  have haccept : clockEdge { rstN := true, cmdValid := true, cmdWord := w } k = .next (acceptEdge w k) :=
    clockEdge_accept hk rfl rfl
  refine ⟨Nat.succ_pos _, fun hlen => ?_, fun hlen => ?_⟩
  · have hphase : (acceptEdge w k).phase = .busy w (latencyAt k.edges - 1 - ps.length + ps.length) :=
      congrArg (Phase.busy w) (by omega)
    exact ⟨_, _, (clockEdges_cons haccept).trans (clockEdges_busy hphase hps), rfl,
      portOutputs_of_wasReset (by simp) true, by simp, rfl⟩
  · obtain ⟨e, d, u, ht⟩ := acceptWord_exists_latch w k.core
    have ht' : acceptWord w (acceptEdge w k).core = .next (latch e d u) :=
      (acceptWord_withLatch w false k.core.rspErr k.core.rspData k.core).trans ht
    exact ⟨_, _, _, ht, (clockEdges_cons haccept).trans (clockEdges_complete rfl hlen hps ht'), rfl, rfl,
      portOutputs_of_wasReset (by simp) true, by simp, rfl, rfl, rfl, fun qs => clockEdges_idle rfl⟩

/-- Settles O46: the reset edge does not look at the phase; the free delay after it is finite. -/
theorem resetEdgeResetsAndTheBlockWakes : Obligations.ResetEdgeResetsAndTheBlockWakes := by
  intro k p hp
  refine ⟨_, _, clockEdge_reset hp, atReset_pulseReset k.core, portOutputs_of_wasReset (wakePhase_ne_neverReset _) false,
    rfl, rfl, Config.wakeDelay k.edges, fun ps hlen hps => ?_⟩
  exact ⟨_, _, clockEdges_wake (congrArg wakePhase hlen.symm) hps, rfl, portOutputs_of_wasReset (by simp) true, by simp⟩

/-- Settles O47: the phase before the first reset is refused by name. -/
theorem blockNeverResetIsRefused : Obligations.BlockNeverResetIsRefused := fun _ _ hk =>
  ⟨clockEdge_neverReset hk, fun _ => if_pos hk⟩

/-- Settles O48: RSP_VALID selects between the latch and the free values. -/
theorem outputsShowTheLatchAndTheFlag : Obligations.OutputsShowTheLatchAndTheFlag := by
  intro k hk
  refine ⟨_, portOutputs_of_wasReset hk true, rfl, fun hv => ?_, fun hv => ?_, keyUsable_iff k.core⟩
  · simp [hv]
  · simp [hv]

/-- Settles O49: by the phase; only a completion and a reset touch the state under the latch. -/
theorem everyEdgeKeepsTheBlockSound : Obligations.EveryEdgeKeepsTheBlockSound := by
  rintro k p ⟨hcore, hreset⟩
  cases hp : p.rstN with
  | false => exact ⟨_, clockEdge_reset hp, sound_pulseReset hcore.size, wakePhase_ne_neverReset _⟩
  | true =>
    cases hk : k.phase with
    | neverReset => exact absurd hk hreset
    | waking n => exact ⟨_, clockEdge_waking hk hp, hcore, wakePhase_ne_neverReset n⟩
    | ready =>
      cases hv : p.cmdValid with
      | false => exact ⟨_, clockEdge_idle hk hp hv, hcore, hreset⟩
      | true => exact ⟨_, clockEdge_accept hk hp hv, sound_latchCleared hcore, by simp [acceptEdge]⟩
    | busy w n =>
      cases n with
      | zero =>
        obtain ⟨e, d, u, ht⟩ := acceptWord_exists_latch w k.core
        exact ⟨_, clockEdge_complete hk hp ht, acceptWord_keeps_sound hcore ht, by simp⟩
      | succ n => exact ⟨_, clockEdge_busy hk hp, hcore, by simp⟩

end Sys2Proof.PortsProofs

/-! PROOFS. The assembler (spec 30_encoding.md R69, R70): its range checks against the ranges of the table, the word of each
line, and the expansions of the pseudo-instructions. -/

namespace Sys2Proof.AssemblerProofs

open Sys2Proof.Machine
open Sys2Proof.Claims
open Sys2Proof.Laws.Listing

/-! A line gives its words when it passes the check, and nothing otherwise. -/

theorem assembleLine_of_wellFormed {l : AsmLine} (h : l.wellFormed = true) : assembleLine l = some (lineWords l) := if_pos h

theorem assembleLine_of_not_wellFormed {l : AsmLine} (h : ¬l.wellFormed = true) : assembleLine l = none := if_neg h

/-! The range checks (R69). -/

theorem isValue_iff (n : Number) : n.isValue = true ↔ allowedValue n := by
  cases n <;> simp [Number.isValue, allowedValue]

theorem isByte_iff (n : Number) : n.isByte = true ↔ allowedByte n := by
  cases n <;> simp [Number.isByte, allowedByte]

theorem isHalf_iff (n : Number) : n.isHalf = true ↔ allowedHalf n := by
  cases n <;> simp [Number.isHalf, allowedHalf]

theorem value_eq_denotes (n : Number) : n.value = denotes n := by
  cases n <;> rfl

/-- A line whose check is a range and whose word is the encoder's. -/
theorem assembles_of {line : Number → AsmLine} {allowed : Number → Prop} {word : Number → CommandWord}
    (hcheck : ∀ n, (line n).wellFormed = true ↔ allowed n) (hword : ∀ n, lineWords (line n) = [word n]) :
    assembles line allowed word := fun n =>
  ⟨fun h => (assembleLine_of_wellFormed ((hcheck n).mpr h)).trans (congrArg some (hword n)),
    fun h => assembleLine_of_not_wellFormed (mt (hcheck n).mp h)⟩

/-! An operand as its field: the integer the number stands for, at the field's width. -/

theorem asmValue_eq (n : Number) : asmValue n = BitVec.ofInt 32 (denotes n) :=
  congrArg (BitVec.ofInt 32) (value_eq_denotes n)

theorem asmByte_eq (n : Number) : asmByte n = BitVec.ofInt 8 (denotes n) :=
  congrArg (BitVec.ofInt 8) (value_eq_denotes n)

theorem asmHalf_eq (n : Number) : asmHalf n = BitVec.ofInt 16 (denotes n) :=
  congrArg (BitVec.ofInt 16) (value_eq_denotes n)

theorem wrin_wellFormed_iff (i d : Number) : (AsmLine.wrin i d).wellFormed = true ↔ allowedHalf i ∧ allowedByte d := by
  rw [← isHalf_iff, ← isByte_iff]
  exact Bool.and_eq_true_iff

/-- Settles O51: each check is its range of the table, and each word is the encoder's with the operand in its field. -/
theorem assemblerChecksTheOperandRanges : Obligations.AssemblerChecksTheOperandRanges := by
  simp only [Obligations.AssemblerChecksTheOperandRanges, ← asmValue_eq, ← asmByte_eq, ← asmHalf_eq]
  refine ⟨assembles_of isValue_iff fun _ => rfl, assembles_of isValue_iff fun _ => rfl, assembles_of isByte_iff fun _ => rfl,
    assembles_of isByte_iff fun _ => rfl, assembles_of isHalf_iff fun _ => rfl, assembles_of isHalf_iff fun _ => rfl,
    fun i d => ⟨fun h => ?_, fun h => ?_⟩, assembles_of isHalf_iff fun _ => rfl, assembles_of isHalf_iff fun _ => rfl,
    rfl, rfl, rfl, rfl, fun w => ⟨fun h => ?_, fun h => ?_⟩⟩
  · exact assembleLine_of_wellFormed ((wrin_wellFormed_iff i d).mpr h)
  · exact assembleLine_of_not_wellFormed (mt (wrin_wellFormed_iff i d).mp h)
  · exact assembleLine_of_wellFormed (decide_eq_true h)
  · exact assembleLine_of_not_wellFormed (mt of_decide_eq_true h)

/-! The expansions (R70). -/

theorem getElem?_wrstrCommands (bs : List Byte) (i k : Nat) :
    (wrstrCommands i bs)[k]? = bs[k]?.map fun v => .wrin (BitVec.ofNat 16 (i + k)) v := by
  induction bs generalizing i k with
  | nil => rfl
  | cons v vs ih =>
    cases k with
    | zero => rfl
    | succ k => simp [wrstrCommands, ih, Nat.add_assoc, Nat.add_comm 1 k]

theorem length_wrstrCommands (bs : List Byte) (i : Nat) : (wrstrCommands i bs).length = bs.length := by
  induction bs generalizing i with
  | nil => rfl
  | cons v vs ih => simp [wrstrCommands, ih]

theorem getElem?_rdbufCommands {n k : Nat} (i : Nat) (h : k < n) :
    (rdbufCommands i n)[k]? = some (.rdout (BitVec.ofNat 16 (i + k))) := by
  induction n generalizing i k with
  | zero => exact absurd h k.not_lt_zero
  | succ n ih =>
    cases k with
    | zero => rfl
    | succ k => simp [rdbufCommands, ih (i + 1) (Nat.lt_of_succ_lt_succ h), Nat.add_assoc, Nat.add_comm 1 k]

theorem length_rdbufCommands (i n : Nat) : (rdbufCommands i n).length = n := by
  induction n generalizing i with
  | zero => rfl
  | succ n ih => simp [rdbufCommands, ih]

theorem assembleLine_setkey (a b : BitVec 32) :
    assembleLine (.setkey (.dec a.toInt) (.dec b.toInt)) = some [encode (.seta a), encode (.setb b)] := by
  have hcheck : (AsmLine.setkey (.dec a.toInt) (.dec b.toInt)).wellFormed = true := by
    simp only [AsmLine.wellFormed, value_in_range, Bool.and_self]
  rw [assembleLine_of_wellFormed hcheck, lineWords, asmValue_dec, asmValue_dec]

theorem isHalf_dec {i : Nat} (h : i < 65536) : (Number.dec i).isHalf = true := decide_eq_true ⟨by omega, by omega⟩

theorem assembleLine_wrstr {i : Nat} {bs : List Byte} (hi : i < 65536) (hlen : i + bs.length ≤ 65536) :
    assembleLine (.wrstr (.dec i) bs) = some ((wrstrCommands i bs).map encode) := by
  have hend : (i : Int) + bs.length ≤ 65536 := by omega
  exact assembleLine_of_wellFormed (Bool.and_eq_true_iff.mpr ⟨isHalf_dec hi, decide_eq_true hend⟩)

theorem assembleLine_rdbuf {i n : Nat} (hi : i < 65536) (hlen : i + n ≤ 65536) :
    assembleLine (.rdbuf (.dec i) (.dec n)) = some ((rdbufCommands i n).map encode) := by
  have hcount : (Number.dec n).isCount = true := decide_eq_true (Int.natCast_nonneg n)
  have hend : (i : Int) + n ≤ 65536 := by omega
  exact assembleLine_of_wellFormed
    (Bool.and_eq_true_iff.mpr ⟨Bool.and_eq_true_iff.mpr ⟨isHalf_dec hi, hcount⟩, decide_eq_true hend⟩)

/-- Settles O50: the commands of an expansion, index by index. -/
theorem pseudoInstructionsExpand : Obligations.PseudoInstructionsExpand := by
  refine ⟨assembleLine_setkey, fun i bs hi hlen => ⟨_, assembleLine_wrstr hi hlen, ?_, fun k v hk => ?_⟩,
    fun i n hi hlen => ⟨_, assembleLine_rdbuf hi hlen, ?_, fun k hk => ?_⟩⟩
  · rw [List.length_map, length_wrstrCommands]
  · rw [List.getElem?_map, getElem?_wrstrCommands, hk]
    rfl
  · rw [List.length_map, length_rdbufCommands]
  · rw [List.getElem?_map, getElem?_rdbufCommands i hk]
    rfl

end Sys2Proof.AssemblerProofs
